-- ==== Sys2Proof/Word.lean ====
section
/-! DEFINITION. The two word types of the CORE (00_scope.md R6, R7). Byte order and the other helpers that a
later test could show wrong stand in Machine/Bytes.lean. -/

namespace Sys2Proof

/-- A memory cell, an instruction-stream unit, a register-storage byte: 8 bits (00_scope.md R7). -/
abbrev Byte := BitVec 8

/-- A register, a literal, a comparison value, an address in an instruction: 16 bits (00_scope.md R6). -/
abbrev Word := BitVec 16

end Sys2Proof
end

