-- ==== Sys2Proof/Machine/Flags.lean ====
section
/-! DEFINITION. The CORE has no flag of any kind (10_state.md R31), so no flag is computed. Here stand the two
computations the spec has where other machines have flags: the sum whose carry is recorded nowhere, and the comparison
a branch makes by itself. -/

namespace Sys2Proof.Machine

/-- `u16(u + w)`: the sum modulo `0x10000`, the carry discarded (41_arithmetic.md R140, R141). -/
def wrappingSum (u w : Word) : Word := BitVec.ofNat 16 (u.toNat + w.toNat)

/-- JMP_NEQ's condition: unsigned 16-bit inequality of the comparison value and `acc` (42_control_transfer.md R150). -/
def differs (c acc : Word) : Bool := c != acc

end Sys2Proof.Machine
end

