-- ==== Sys2Proof/Machine/Bytes.lean ====
section
/-! DEFINITION. The one fixed byte order of the CORE, little-endian, used for register slots, fetch-wide operands
and 2-byte memory data (10_state.md R22, 20_memory.md R55, 30_encoding.md R82), and 16-bit address arithmetic. -/

namespace Sys2Proof

/-- `hi ++ lo`: the 16-bit value `lo + 256 * hi` (00_scope.md section 5). -/
def joinBytes (hi lo : Byte) : Word := hi ++ lo

/-- `v[7:0]`. -/
def lowByte (v : Word) : Byte := v.extractLsb' 0 8

/-- `v[15:8]`. -/
def highByte (v : Word) : Byte := v.extractLsb' 8 8

/-- `u16(a + n)`: an instruction address moved on by `n` bytes, wrapping at `0xFFFF` (30_encoding.md R81). -/
def advance (a : Word) (n : Nat) : Word := a + BitVec.ofNat 16 n

end Sys2Proof
end

