-- ==== Sys2Proof/Config.lean ====
section
/-! DEFINITION. The implementation parameters of 00_scope.md section 3 that shape decoding: `OPCODE_BYTE` and
`ADD_OPERAND_DECODE`. They are plain data, fixed when the machine is constructed, and the machine's state carries
them, so that a statement about every state is a statement about every choice of them. `MEM_SIZE` is the length of
the memory (Machine/State.lean); `INIT_IMAGE` is the argument of CONSTRUCT (Machine/Ports.lean). The spec's default
values stand in Machine/Defaults.lean. The spec leaves no result of an instruction undefined, so there is no free
value here. -/

namespace Sys2Proof

/-- `REG_COUNT`: the number of registers of the register file (00_scope.md R5). -/
abbrev regCount : Nat := 10

/-- `OPCODE_BYTE`: the opcode byte of each of the six instructions (00_scope.md R9, 30_encoding.md R86). -/
structure OpcodeMap where
  movLitReg : Byte
  movRegReg : Byte
  movRegMem : Byte
  movMemReg : Byte
  addRegReg : Byte
  jmpNeq : Byte
deriving DecidableEq, Repr

/-- The six opcode bytes in the declaration order of 30_encoding.md R86. -/
def OpcodeMap.toList (m : OpcodeMap) : List Byte :=
  [m.movLitReg, m.movRegReg, m.movRegMem, m.movMemReg, m.addRegReg, m.jmpNeq]

/-- The map "must be injective" (00_scope.md R9). -/
abbrev OpcodeMap.Injective (m : OpcodeMap) : Prop := m.toList.Nodup

/-- `ADD_OPERAND_DECODE`: how ADD_REG_REG reads its two operand bytes (00_scope.md R10). -/
inductive AddOperandDecode where
  /-- register indices, reduced modulo `REG_COUNT` like every other register operand -/
  | reduced
  /-- byte offsets into the register storage, not reduced -/
  | rawOffset
deriving DecidableEq, Repr

/-- The parameters that decoding takes. -/
structure Params where
  opcodes : OpcodeMap
  addDecode : AddOperandDecode
deriving DecidableEq, Repr

end Sys2Proof
end

