-- ==== Sys2Proof/Machine/Defaults.lean ====
section
/-! DEFINITION. The values the parameters have in the reset state. The first two are the spec's defaults; the
memory size is this model's choice, since the spec gives none. No statement rests on any of them but those that name
them. -/

namespace Sys2Proof

/-- The spec's default `OPCODE_BYTE` (00_scope.md R9, 30_encoding.md R86). PRESUMED: the spec takes the values from
general knowledge (decision D1); unsafe, log entry 2. -/
def defaultOpcodes : OpcodeMap where
  movLitReg := 0x10
  movRegReg := 0x11
  movRegMem := 0x12
  movMemReg := 0x13
  addRegReg := 0x14
  jmpNeq := 0x15

/-- The spec's default parameters: `ADD_OPERAND_DECODE = reduced` (00_scope.md R10, decision D3; log entry 3). -/
def defaultParams : Params where
  opcodes := defaultOpcodes
  addDecode := .reduced

/-- `MEM_SIZE` of the reset state. DESIGN CHOICE, unsafe, log entry 1: the spec leaves it open with no default
(decision D9); this is the least size at which every 16-bit address names a cell (00_scope.md R8). -/
def defaultMemSize : Nat := 0x10000

end Sys2Proof
end

