-- ==== Sys2Proof/Syntax.lean ====
section
/-! DEFINITION. The ten registers, the six opcodes, and the instructions with their operands: one constructor of
`Instr` per row of spec/opcode_table.json. -/

namespace Sys2Proof

/-- The ten registers, in declaration order (10_state.md R21). -/
inductive Reg where
  | ip | acc | r1 | r2 | r3 | r4 | r5 | r6 | r7 | r8
deriving DecidableEq, Repr

/-- The closed set of opcodes (30_encoding.md R86). -/
inductive Opcode where
  | movLitReg | movRegReg | movRegMem | movMemReg | addRegReg | jmpNeq
deriving DecidableEq, Repr

/-- An operand of ADD_REG_REG, in the form that `ADD_OPERAND_DECODE` gives it (41_arithmetic.md R140). -/
inductive AddOperand where
  /-- a register index byte, already reduced (`reduced`) -/
  | reg (r : Reg)
  /-- a raw byte offset into the register storage (`raw_offset`) -/
  | offset (o : Byte)
deriving DecidableEq, Repr

/-- An instruction with its operands assembled, in encoding order (30_encoding.md R87, R88). -/
inductive Instr where
  /-- MOV_LIT_REG: literal, destination (40_data_movement.md R120) -/
  | movLitReg (lit : Word) (d : Reg)
  /-- MOV_REG_REG: source, destination (40_data_movement.md R122) -/
  | movRegReg (r : Reg) (d : Reg)
  /-- MOV_REG_MEM: source, address (40_data_movement.md R124) -/
  | movRegMem (r : Reg) (addr : Word)
  /-- MOV_MEM_REG: address, destination (40_data_movement.md R126) -/
  | movMemReg (addr : Word) (d : Reg)
  /-- ADD_REG_REG: the two addends; the destination is always `acc` (41_arithmetic.md R140) -/
  | addRegReg (p : AddOperand) (q : AddOperand)
  /-- JMP_NEQ: comparison value, target (42_control_transfer.md R150) -/
  | jmpNeq (cmp : Word) (target : Word)
deriving DecidableEq, Repr

/-- The opcode of an instruction. -/
def Instr.opcode : Instr → Opcode
  | .movLitReg _ _ => .movLitReg
  | .movRegReg _ _ => .movRegReg
  | .movRegMem _ _ => .movRegMem
  | .movMemReg _ _ => .movMemReg
  | .addRegReg _ _ => .addRegReg
  | .jmpNeq _ _ => .jmpNeq

end Sys2Proof
end

