-- ==== Sys2Proof/Machine/Registers.lean ====
section
/-! DEFINITION. The numbering of the registers (10_state.md R21) and the reduction of a register operand byte
(30_encoding.md R83). -/

namespace Sys2Proof

/-- The index of a register: its position in declaration order (10_state.md R21). -/
def Reg.index : Reg → Nat
  | .ip => 0
  | .acc => 1
  | .r1 => 2
  | .r2 => 3
  | .r3 => 4
  | .r4 => 5
  | .r5 => 6
  | .r6 => 7
  | .r7 => 8
  | .r8 => 9

theorem Reg.index_lt (r : Reg) : r.index < 10 := by
  cases r <;> decide

/-- The register whose index is `k`; none for `k ≥ 10` (10_state.md R21). -/
def Reg.ofIndex? : Nat → Option Reg
  | 0 => some .ip
  | 1 => some .acc
  | 2 => some .r1
  | 3 => some .r2
  | 4 => some .r3
  | 5 => some .r4
  | 6 => some .r5
  | 7 => some .r6
  | 8 => some .r7
  | 9 => some .r8
  | _ => none

/-- The register a register operand byte names: the byte modulo `REG_COUNT` is its index (30_encoding.md R83).
The index is below 10, so the default is never taken (`Reg.index_ofByte` in Laws/Decode.lean). -/
def Reg.ofByte (b : Byte) : Reg := (Reg.ofIndex? (b.toNat % regCount)).getD .ip

/-- The canonical operand byte of a register: its index (30_encoding.md R93). -/
def Reg.toByte (r : Reg) : Byte := BitVec.ofNat 8 r.index

/-- All registers in declaration order, as DUMP lists them (10_state.md R35). -/
def Reg.all : List Reg := [.ip, .acc, .r1, .r2, .r3, .r4, .r5, .r6, .r7, .r8]

end Sys2Proof
end

