-- ==== Sys2Proof/WellFormed.lean ====
section
/-! DEFINITION. Which instructions can be encoded under given parameters. The operand types leave one thing to
check: the form of ADD_REG_REG's operands is the one `ADD_OPERAND_DECODE` selects (00_scope.md R10). Every register,
every 16-bit literal and address and every offset byte is encodable (30_encoding.md R89, R91). -/

namespace Sys2Proof

/-- An ADD_REG_REG operand has the form the parameter selects (41_arithmetic.md R140). -/
def AddOperand.wellFormed (mode : AddOperandDecode) : AddOperand → Bool
  | .reg _ => decide (mode = .reduced)
  | .offset _ => decide (mode = .rawOffset)

/-- The instruction has an encoding under these parameters. -/
def Instr.wellFormed (p : Params) : Instr → Bool
  | .movLitReg _ _ => true
  | .movRegReg _ _ => true
  | .movRegMem _ _ => true
  | .movMemReg _ _ => true
  | .addRegReg a b => a.wellFormed p.addDecode && b.wellFormed p.addDecode
  | .jmpNeq _ _ => true

end Sys2Proof
end

