-- ==== Sys2Proof/Decode.lean ====
section
/-! DEFINITION. Decoding and encoding (30_encoding.md sections 1 to 4). The operand decoder is written once, over any
source of bytes: a step gives it the memory at the fetch cursor (Machine/Fetch.lean), `decode` gives it a list. A
source answers the next byte and the source moved on by one, or fails. -/

namespace Sys2Proof

/-- The opcode byte of an opcode under `OPCODE_BYTE` (30_encoding.md R86). -/
def OpcodeMap.byte (m : OpcodeMap) : Opcode → Byte
  | .movLitReg => m.movLitReg
  | .movRegReg => m.movRegReg
  | .movRegMem => m.movRegMem
  | .movMemReg => m.movMemReg
  | .addRegReg => m.addRegReg
  | .jmpNeq => m.jmpNeq

/-- `L`, the length in bytes, opcode byte included (30_encoding.md R87). -/
def Opcode.length : Opcode → Nat
  | .movLitReg => 4
  | .movRegReg => 3
  | .movRegMem => 4
  | .movMemReg => 4
  | .addRegReg => 3
  | .jmpNeq => 5

/-- The length in bytes of an instruction (30_encoding.md R87). -/
def Instr.length (i : Instr) : Nat := i.opcode.length

/-- The opcode a first byte stands for, if any (30_encoding.md R90). Under an injective map the order of the tests
does not matter; under any other the first match counts (DESIGN CHOICE, safe, log entry 13: 00_scope.md R9 forbids
such a map). -/
def decodeOpcode (m : OpcodeMap) (b : Byte) : Option Opcode :=
  if b = m.movLitReg then some .movLitReg
  else if b = m.movRegReg then some .movRegReg
  else if b = m.movRegMem then some .movRegMem
  else if b = m.movMemReg then some .movMemReg
  else if b = m.addRegReg then some .addRegReg
  else if b = m.jmpNeq then some .jmpNeq
  else none

/-- What an operand byte of ADD_REG_REG stands for, by `ADD_OPERAND_DECODE` (30_encoding.md R88, 41_arithmetic.md
R140). -/
def AddOperand.ofByte (mode : AddOperandDecode) (b : Byte) : AddOperand :=
  match mode with
  | .reduced => .reg (Reg.ofByte b)
  | .rawOffset => .offset b

section Operands

variable {σ ε : Type} (get : σ → Except ε (Byte × σ))

/-- `FetchWide()`: two fetches, low byte first (30_encoding.md R82). -/
def fetchWide (c : σ) : Except ε (Word × σ) := do
  let (lo, c) ← get c
  let (hi, c) ← get c
  return (joinBytes hi lo, c)

/-- `FetchRegIndex()`: one fetch, reduced modulo `REG_COUNT` (30_encoding.md R83). -/
def fetchReg (c : σ) : Except ε (Reg × σ) := do
  let (b, c) ← get c
  return (Reg.ofByte b, c)

/-- One fetch, read as an operand of ADD_REG_REG (41_arithmetic.md R140). -/
def fetchAddOperand (mode : AddOperandDecode) (c : σ) : Except ε (AddOperand × σ) := do
  let (b, c) ← get c
  return (AddOperand.ofByte mode b, c)

/-- The operand fetches of each opcode, in operand order (30_encoding.md R87). -/
def decodeOperands (p : Params) (op : Opcode) (c : σ) : Except ε (Instr × σ) :=
  match op with
  | .movLitReg => do
    let (lit, c) ← fetchWide get c
    let (d, c) ← fetchReg get c
    return (.movLitReg lit d, c)
  | .movRegReg => do
    let (r, c) ← fetchReg get c
    let (d, c) ← fetchReg get c
    return (.movRegReg r d, c)
  | .movRegMem => do
    let (r, c) ← fetchReg get c
    let (addr, c) ← fetchWide get c
    return (.movRegMem r addr, c)
  | .movMemReg => do
    let (addr, c) ← fetchWide get c
    let (d, c) ← fetchReg get c
    return (.movMemReg addr d, c)
  | .addRegReg => do
    let (a, c) ← fetchAddOperand get p.addDecode c
    let (b, c) ← fetchAddOperand get p.addDecode c
    return (.addRegReg a b, c)
  | .jmpNeq => do
    let (cmp, c) ← fetchWide get c
    let (target, c) ← fetchWide get c
    return (.jmpNeq cmp target, c)

end Operands

/-- Why a list of bytes is not an instruction. -/
inductive DecodeError where
  /-- the list is empty -/
  | noOpcodeByte
  /-- the first byte is no opcode byte (30_encoding.md R90, R91) -/
  | invalidOpcode (b : Byte)
  /-- the list ends before the last operand byte -/
  | truncated
deriving DecidableEq, Repr

/-- The next operand byte of a list. -/
def nextByte : List Byte → Except DecodeError (Byte × List Byte)
  | [] => .error .truncated
  | b :: rest => .ok (b, rest)

/-- The instruction at the head of a list of bytes, and the rest of the list (30_encoding.md R90, R92). -/
def decode (p : Params) : List Byte → Except DecodeError (Instr × List Byte)
  | [] => .error .noOpcodeByte
  | b :: rest =>
    match decodeOpcode p.opcodes b with
    | none => .error (.invalidOpcode b)
    | some op => decodeOperands nextByte p op rest

/-- A 16-bit operand, low byte first (30_encoding.md R82). -/
def encodeWide (v : Word) : List Byte := [lowByte v, highByte v]

/-- The operand byte of ADD_REG_REG (41_arithmetic.md R140). -/
def AddOperand.toByte : AddOperand → Byte
  | .reg r => r.toByte
  | .offset o => o

/-- The operand bytes of an instruction, in operand order (30_encoding.md R87). -/
def encodeOperands : Instr → List Byte
  | .movLitReg lit d => encodeWide lit ++ [d.toByte]
  | .movRegReg r d => [r.toByte, d.toByte]
  | .movRegMem r addr => r.toByte :: encodeWide addr
  | .movMemReg addr d => encodeWide addr ++ [d.toByte]
  | .addRegReg a b => [a.toByte, b.toByte]
  | .jmpNeq cmp target => encodeWide cmp ++ encodeWide target

/-- The bytes of an instruction, registers by their canonical bytes (30_encoding.md R87, R93). -/
def encode (p : Params) (i : Instr) : List Byte :=
  p.opcodes.byte i.opcode :: encodeOperands i

/-- The first `n` bytes of a number whose bit 0 is the least significant bit of its first byte. -/
def tableBytes : Nat → Nat → List Byte
  | 0, _ => []
  | n + 1, w => BitVec.ofNat 8 w :: tableBytes n (w / 256)

/-- The longest instruction, in bytes (30_encoding.md R87: JMP_NEQ). -/
def maxLength : Nat := 5

/-- The bytes of an instruction given as spec/opcode_table.json numbers its bits, followed by zero bytes up to the
longest instruction. -/
def tableWordBytes (nbits w : Nat) : List Byte := tableBytes maxLength (w % 2 ^ nbits)

/-- What the decoder reads, under the default parameters, from an instruction of the opcode table. -/
def decodeTableWord (nbits w : Nat) : Option Instr :=
  match decode defaultParams (tableWordBytes nbits w) with
  | .ok (i, _) => some i
  | .error _ => none

end Sys2Proof
end

