-- ==== Sys2Proof/Machine/State.lean ====
section
/-! DEFINITION. The state of the CORE between transactions (10_state.md R20), the reasons a transaction fails, and
construction, which is the only reset (70_reset_and_hazards.md R190). -/

namespace Sys2Proof.Machine

/-- The program/data memory `M`: `size` cells of 8 bits (20_memory.md R50). `cells` lists the cells that do not hold
`0x00`, addresses strictly rising and below `size` (`Memory.Wf` in Ops.lean); an unlisted cell holds `0x00`, as
"`size` zero-valued cells" do (20_memory.md R51). -/
structure Memory where
  size : Nat
  cells : List Host.Cell
deriving DecidableEq, Repr

/-- `Memory::new(size)`: every cell zero (20_memory.md R51). -/
def Memory.new (size : Nat) : Memory := ⟨size, []⟩

/-- The register storage `RS`: 20 bytes; register `k` has bytes `2k` (low) and `2k + 1` (high) (10_state.md R21). -/
abbrev RegStorage := Vector Byte 20

/-- The step loop (10_state.md R40): "Idle (no instruction in flight)", or inside a STEP transaction. -/
inductive LoopState where
  | idle
  | inFlight
deriving DecidableEq, Repr

/-- The state of the CORE: memory, register storage and step loop (10_state.md R20), and the parameters the machine
was constructed with (00_scope.md R9, R10), which no transaction changes. -/
structure State where
  /-- `OPCODE_BYTE` and `ADD_OPERAND_DECODE` -/
  params : Params
  /-- `M`, with its length `MEM_SIZE` -/
  mem : Memory
  /-- `RS`, which holds `ip`, `acc`, `r1` .. `r8` -/
  rs : RegStorage
  /-- the step loop -/
  loop : LoopState
deriving DecidableEq, Repr

/-- The cause of an ExecutionFailure (60_exceptions.md R162). -/
inductive Cause where
  /-- an operand byte lies outside memory -/
  | operandFetch
  /-- a cell MOV_MEM_REG reads lies outside memory -/
  | dataRead
  /-- a cell MOV_REG_MEM writes lies outside memory -/
  | dataWrite
  /-- an ADD_REG_REG offset is 19 or more (`raw_offset` only) -/
  | regOffset
deriving DecidableEq, Repr

/-- The failure kinds (60_exceptions.md R160). Each is the hardware's own report of a failed transaction, not a stop
of the model's; a failed transaction changes nothing (R165). All are safe: the hardware reports the same. -/
inductive Fault where
  /-- InvalidRegister: REG_READ or REG_WRITE with a select of 10 or more (R164); no step raises it. Safe. -/
  | invalidRegister (select : Nat)
  /-- OutOfBounds: LOAD at an index outside memory (R164); no step raises it. Safe. -/
  | outOfBounds (index : Nat)
  /-- FetchFailure, cause OutOfBounds: the opcode fetch of a STEP at an index outside memory (R161). Safe. -/
  | fetchFailure (index : Nat)
  /-- ExecutionFailure: a STEP whose decoded instruction failed; the cell index or offset that failed (R162). Safe. -/
  | executionFailure (cause : Cause) (info : Nat)
  /-- InvalidInstruction: a STEP whose opcode byte is none of the six; the byte and its address (R163). Safe. -/
  | invalidInstruction (opcode : Byte) (address : Word)
deriving DecidableEq, Repr

/-- Why a step is not taken at all. -/
inductive Refusal where
  /-- an instruction with no meaning in this model; no arm of `exec` raises it. Safe. -/
  | notModelled (mnemonic : String)
  /-- a STEP offered while the loop is not `Idle`, which is not accepted (30_encoding.md R100); raised by `step`
  alone, and never after CONSTRUCT, since every transaction leaves the loop `Idle`. Safe (log entry 12). -/
  | notIdle
deriving DecidableEq, Repr

/-- `CPU::new(memory)` (70_reset_and_hazards.md R190): register storage zero, step loop `Idle`, the memory as the host
hands it over. -/
def State.construct (p : Params) (m : Memory) : State where
  params := p
  mem := m
  rs := Vector.replicate 20 0x00
  loop := .idle

/-- The state after reset, which is construction (10_state.md R41), with the default parameters and the default
`INIT_IMAGE`, all zero (00_scope.md R11). Its `MEM_SIZE` is the DESIGN CHOICE of log entry 1. -/
def State.reset : State := State.construct defaultParams (Memory.new defaultMemSize)

end Sys2Proof.Machine
end

