-- ==== Sys2Proof/Machine/Ops.lean ====
section
/-! DEFINITION. The named operations over memory and registers, the state updates, and the commit that ends a
successful step (30_encoding.md R100). The CORE has no trap entry and no return from trap (60_exceptions.md R169,
R170), so no such operation stands here: a failure is the outcome `fault` of the step, and `stepPort`
(Machine/Ports.lean) gives it to the host with the state unchanged. -/

namespace Sys2Proof.Machine

/-! ### Memory -/

/-- What a cell that is not listed holds: `0x00` (20_memory.md R51). -/
def unlistedByte : Byte := 0x00

/-- The byte a list of cells gives address `a`. -/
def lookupCell (a : Nat) : List Host.Cell → Byte
  | [] => unlistedByte
  | c :: cs => if c.1 = a then c.2 else lookupCell a cs

/-- Puts a cell before the first one with a higher address. -/
def placeCell (c : Host.Cell) : List Host.Cell → List Host.Cell
  | [] => [c]
  | d :: ds => if c.1 < d.1 then c :: d :: ds else d :: placeCell c ds

/-- Makes the byte at `a` be `b`, keeping the canonical form: a cell that holds what an unlisted cell holds is not
listed. -/
def storeCell (a : Nat) (b : Byte) (cs : List Host.Cell) : List Host.Cell :=
  let others := cs.filter fun c => c.1 ≠ a
  if b = unlistedByte then others else placeCell (a, b) others

/-- The canonical form: addresses strictly rising and inside memory, no entry equal to what an unlisted cell holds. -/
abbrev Memory.Wf (m : Memory) : Prop :=
  m.cells.Pairwise (fun c d => c.1 < d.1) ∧ ∀ c ∈ m.cells, c.1 < m.size ∧ c.2 ≠ unlistedByte

/-- `MemRead(addr, 1)`: the byte, or the index that is out of bounds (20_memory.md R53). -/
def Memory.read1 (m : Memory) (i : Nat) : Except Nat Byte :=
  if i < m.size then .ok (lookupCell i m.cells) else .error i

/-- `MemRead(addr, 2)`, little-endian; the second cell is `addr + 1`, not wrapped (20_memory.md R53, R55, R56). -/
def Memory.read2 (m : Memory) (i : Nat) : Except Nat Word := do
  let lo ← m.read1 i
  let hi ← m.read1 (i + 1)
  return joinBytes hi lo

/-- `MemWrite(addr, 1, b)` (20_memory.md R54). -/
def Memory.write1 (m : Memory) (i : Nat) (b : Byte) : Except Nat Memory :=
  if i < m.size then .ok { m with cells := storeCell i b m.cells } else .error i

/-- `MemWrite(addr, 2, v)`, little-endian: both cells or neither (20_memory.md R54, R55, R56). -/
def Memory.write2 (m : Memory) (i : Nat) (v : Word) : Except Nat Memory := do
  let m ← m.write1 i (lowByte v)
  m.write1 (i + 1) (highByte v)

/-- The cells of an image placed from address `a` upward. -/
def imageCells (a : Nat) : List Byte → List Host.Cell
  | [] => []
  | b :: bs => if b = unlistedByte then imageCells (a + 1) bs else (a, b) :: imageCells (a + 1) bs

/-- The memory whose content is `INIT_IMAGE`: one cell per byte (00_scope.md R11). -/
def Memory.ofImage (image : List Byte) : Memory := ⟨image.length, imageCells 0 image⟩

/-! ### The register file controller -/

/-- `x[k] = RS[2k+1] ++ RS[2k]` (10_state.md R22). -/
def RegStorage.read (rs : RegStorage) (r : Reg) : Word :=
  joinBytes (rs[2 * r.index + 1]'(by have := r.index_lt; omega)) (rs[2 * r.index]'(by have := r.index_lt; omega))

/-- `x[k] <- v`: both bytes of the slot, and no other byte (10_state.md R23). -/
def RegStorage.write (rs : RegStorage) (r : Reg) (v : Word) : RegStorage :=
  (rs.set (2 * r.index) (lowByte v) (by have := r.index_lt; omega)).set (2 * r.index + 1) (highByte v)
    (by have := r.index_lt; omega)

/-- `RSRead16(o)`: the two bytes at offset `o`, little-endian, or the offset that is out of bounds (10_state.md R38). -/
def RegStorage.read16 (rs : RegStorage) (o : Nat) : Except Nat Word :=
  if h : o + 1 ≤ 19 then .ok (joinBytes rs[o + 1] rs[o]) else .error o

/-! ### State updates -/

/-- The state with another memory content. -/
def State.setMem (s : State) (m : Memory) : State := { s with mem := m }

/-- The state with another register storage. -/
def State.setRs (s : State) (rs : RegStorage) : State := { s with rs := rs }

/-- The state with another step-loop state. -/
def State.setLoop (s : State) (l : LoopState) : State := { s with loop := l }

/-- `x[k]` (10_state.md R22, R37). -/
def State.readReg (s : State) (r : Reg) : Word := s.rs.read r

/-- `x[k] <- v` (10_state.md R23, R37). -/
def State.writeReg (s : State) (r : Reg) (v : Word) : State := s.setRs (s.rs.write r v)

/-- `a`: the address of the opcode byte of the step, the value of `ip` when it begins (30_encoding.md R80). -/
def State.ip (s : State) : Word := s.readReg .ip

/-- The state inside a STEP transaction, which has left `Idle` (10_state.md R40). -/
def State.leaveIdle (s : State) : State := s.setLoop .inFlight

/-! ### Execute and commit -/

/-- What Execute stages for the commit: at most one register write or one memory write, never both (30_encoding.md
R100). A memory write stages the memory after the checked `MemWrite`. -/
inductive Effect where
  | nothing
  | register (r : Reg) (v : Word)
  | memory (m : Memory)
deriving DecidableEq, Repr

/-- The commit of a successful step: `ip <- cur`, then the staged write, which may override it; then the loop is
`Idle` (30_encoding.md R100). -/
def State.commit (s : State) (cur : Word) (e : Effect) : State :=
  let t := s.writeReg .ip cur
  match e with
  | .nothing => t.setLoop .idle
  | .register r v => (t.writeReg r v).setLoop .idle
  | .memory m => (t.setMem m).setLoop .idle

end Sys2Proof.Machine
end

