-- ==== Sys2Proof/Machine/Operands.lean ====
section
/-! DEFINITION. What an operand reads once every operand byte is fetched (30_encoding.md R84): the fetch cursor then
stands at the following instruction, and `ip` as a source reads the cursor (10_state.md R26). -/

namespace Sys2Proof.Machine

/-- The fetch cursor after the last fetch of an instruction: `u16(a + L)` (30_encoding.md R84, R103). -/
def State.cursorAfter (s : State) (op : Opcode) : Word := advance s.ip op.length

/-- The register storage as Execute reads it: bytes 0 and 1 are those of the fetch cursor (10_state.md R26, R38). -/
def State.storageAt (s : State) (cur : Word) : RegStorage := s.rs.write .ip cur

/-- A register source (30_encoding.md R84). -/
def State.source (s : State) (cur : Word) (r : Reg) : Word := (s.storageAt cur).read r

/-- An ADD_REG_REG source: a register, or the two bytes at a raw offset, which fails at 19 and above
(41_arithmetic.md R140). -/
def State.addSource (s : State) (cur : Word) : AddOperand → Except Nat Word
  | .reg r => .ok (s.source cur r)
  | .offset o => (s.storageAt cur).read16 o.toNat

end Sys2Proof.Machine
end

