-- ==== Sys2Proof/Machine/Arithmetic.lean ====
section
/-! DEFINITION. The only arithmetic instruction (41_arithmetic.md). -/

namespace Sys2Proof.Machine

/-- ADD_REG_REG: the sum of the two sources goes to `acc`; a raw offset of 19 or more fails, the first operand's
first (41_arithmetic.md R140, 60_exceptions.md R167). -/
def execAddRegReg (p q : AddOperand) (s : State) : Host.Outcome State Fault Refusal :=
  let cur := s.cursorAfter .addRegReg
  match s.addSource cur p with
  | .error o => .fault (.executionFailure .regOffset o)
  | .ok u =>
    match s.addSource cur q with
    | .error o => .fault (.executionFailure .regOffset o)
    | .ok w => .next (s.commit cur (.register .acc (wrappingSum u w)))

end Sys2Proof.Machine
end

