-- ==== Sys2Proof/Machine/ControlTransfer.lean ====
section
/-! DEFINITION. The only control-transfer instruction (42_control_transfer.md). -/

namespace Sys2Proof.Machine

/-- JMP_NEQ: the target is written to `ip` when the comparison value differs from `acc`, and is not checked
(42_control_transfer.md R150, R152). -/
def execJmpNeq (cmp target : Word) (s : State) : Host.Outcome State Fault Refusal :=
  let cur := s.cursorAfter .jmpNeq
  if differs cmp (s.source cur .acc) then .next (s.commit cur (.register .ip target))
  else .next (s.commit cur .nothing)

end Sys2Proof.Machine
end

