-- ==== Sys2Proof/Machine/DataMovement.lean ====
section
/-! DEFINITION. The four moves (40_data_movement.md). A meaning starts from the state before the step, where `ip` is
the address `a` of the instruction's opcode byte, and is the whole effect of the instruction whose operand bytes have
been fetched. -/

namespace Sys2Proof.Machine

/-- MOV_LIT_REG (40_data_movement.md R120, R121). -/
def execMovLitReg (lit : Word) (d : Reg) (s : State) : Host.Outcome State Fault Refusal :=
  let cur := s.cursorAfter .movLitReg
  .next (s.commit cur (.register d lit))

/-- MOV_REG_REG (40_data_movement.md R122, R123). -/
def execMovRegReg (r d : Reg) (s : State) : Host.Outcome State Fault Refusal :=
  let cur := s.cursorAfter .movRegReg
  .next (s.commit cur (.register d (s.source cur r)))

/-- MOV_REG_MEM: the two cells are checked before either is written (40_data_movement.md R124, R125). -/
def execMovRegMem (r : Reg) (addr : Word) (s : State) : Host.Outcome State Fault Refusal :=
  let cur := s.cursorAfter .movRegMem
  match s.mem.write2 addr.toNat (s.source cur r) with
  | .error i => .fault (.executionFailure .dataWrite i)
  | .ok m => .next (s.commit cur (.memory m))

/-- MOV_MEM_REG (40_data_movement.md R126, R127). -/
def execMovMemReg (addr : Word) (d : Reg) (s : State) : Host.Outcome State Fault Refusal :=
  let cur := s.cursorAfter .movMemReg
  match s.mem.read2 addr.toNat with
  | .error i => .fault (.executionFailure .dataRead i)
  | .ok v => .next (s.commit cur (.register d v))

end Sys2Proof.Machine
end

