-- ==== Sys2Proof/Machine/Dispatch.lean ====
section
/-! DEFINITION. Execute dispatch: one arm per instruction (30_encoding.md R101). -/

namespace Sys2Proof.Machine

def exec (i : Instr) (s : State) : Host.Outcome State Fault Refusal :=
  match i with
  | .movLitReg lit d => Sys2Proof.Machine.execMovLitReg lit d s
  | .movRegReg r d => Sys2Proof.Machine.execMovRegReg r d s
  | .movRegMem r addr => Sys2Proof.Machine.execMovRegMem r addr s
  | .movMemReg addr d => Sys2Proof.Machine.execMovMemReg addr d s
  | .addRegReg p q => Sys2Proof.Machine.execAddRegReg p q s
  | .jmpNeq cmp target => Sys2Proof.Machine.execJmpNeq cmp target s

end Sys2Proof.Machine
end

