-- ==== Sys2Proof/Machine/Fetch.lean ====
section
/-! DEFINITION. Instruction fetch from memory (30_encoding.md section 1), the first half of a step: the opcode byte,
then the operand bytes its opcode implies. -/

namespace Sys2Proof.Machine

/-- `Fetch()`: the byte at the cursor, and the cursor moved on by one, wrapping at `0xFFFF` (30_encoding.md R81). -/
def fetchByte (m : Memory) (cur : Word) : Except Nat (Byte × Word) :=
  match m.read1 cur.toNat with
  | .error i => .error i
  | .ok b => .ok (b, advance cur 1)

/-- The instruction at `ip`, and the cursor after it; or the failure of the opcode fetch, of decode or of the first
operand byte out of range, in that order (30_encoding.md R90, R100, 60_exceptions.md R161, R162, R163, R167). -/
def fetchInstr (s : State) : Except Fault (Instr × Word) :=
  match fetchByte s.mem s.ip with
  | .error i => .error (.fetchFailure i)
  | .ok (b, cur) =>
    match decodeOpcode s.params.opcodes b with
    | none => .error (.invalidInstruction b s.ip)
    | some op =>
      match decodeOperands (fetchByte s.mem) s.params op cur with
      | .error i => .error (.executionFailure .operandFetch i)
      | .ok r => .ok r

/-- Writes bytes to the cells from address `a` upward, wrapping as a fetch does; a cell outside memory does not exist
and is passed over. -/
def placeBytes (m : Memory) (a : Word) : List Byte → Memory
  | [] => m
  | b :: bs =>
    match m.write1 a.toNat b with
    | .error _ => placeBytes m (advance a 1) bs
    | .ok m => placeBytes m (advance a 1) bs

end Sys2Proof.Machine
end

