-- ==== Sys2Proof/Machine/Step.lean ====
section
/-! DEFINITION. The step: one fetch and one execute (30_encoding.md R100, R102). -/

namespace Sys2Proof.Machine

/-- One step. It is accepted only while the loop is `Idle`; fetching changes no state, so a failure leaves the state
as it was (60_exceptions.md R165). -/
def step (s : State) : Host.Outcome State Fault Refusal :=
  match s.loop with
  | .inFlight => .refused .notIdle
  | .idle =>
    match fetchInstr s.leaveIdle with
    | .error f => .fault f
    | .ok (i, _) => exec i s.leaveIdle

/-- The state with an instruction of the opcode table stored where the next step fetches, as the host's LOAD port
would store it, and the loop `Idle` (log entry 5). -/
def State.withFetchWord (s : State) (nbits w : Nat) : State :=
  (s.setMem (placeBytes s.mem s.ip (tableWordBytes nbits w))).setLoop .idle

end Sys2Proof.Machine
end

