-- ==== Sys2Proof/Machine/Ports.lean ====
section
/-! DEFINITION. The CORE's boundary: the six transaction ports of 00_scope.md R12, the arbiter's grant
(20_memory.md R63), the step result record (60_exceptions.md R166) and a run under a host budget (R180). -/

namespace Sys2Proof.Machine

/-- The three requesters that share the memory (20_memory.md R63). -/
inductive Requester where
  | fetchUnit
  | dataPort
  | loadPort
deriving DecidableEq, Repr

/-- The arbiter's grant: LOAD only while the loop is `Idle`, the fetch unit and the data port only inside a step
(20_memory.md R63). -/
def grants (l : LoopState) : Requester → Bool
  | .fetchUnit => l == .inFlight
  | .dataPort => l == .inFlight
  | .loadPort => l == .idle

/-- What a port answers. -/
inductive PortResult (α : Type) where
  /-- Ok, with what the port returns -/
  | ok (value : α)
  /-- a failure kind of 60_exceptions.md R160 -/
  | failed (f : Fault)
  /-- the transaction was offered while the loop was not `Idle` (10_state.md R34, 20_memory.md R62); the spec
  describes no answer, the state does not change (DESIGN CHOICE, safe, log entry 12) -/
  | notAccepted
deriving DecidableEq, Repr

/-- A port transaction: its answer and the state after it. -/
structure Reply (α : Type) where
  result : PortResult α
  state : State
deriving DecidableEq, Repr

/-- CONSTRUCT: a machine with the given parameters whose memory holds `INIT_IMAGE` (70_reset_and_hazards.md R190). -/
def construct (p : Params) (image : List Byte) : State := State.construct p (Memory.ofImage image)

/-- REG_READ (10_state.md R32). -/
def regRead (select : BitVec 4) (s : State) : Reply Word :=
  match s.loop with
  | .inFlight => ⟨.notAccepted, s⟩
  | .idle =>
    match Reg.ofIndex? select.toNat with
    | none => ⟨.failed (.invalidRegister select.toNat), s⟩
    | some r => ⟨.ok (s.readReg r), s⟩

/-- REG_WRITE (10_state.md R33). -/
def regWrite (select : BitVec 4) (v : Word) (s : State) : Reply Unit :=
  match s.loop with
  | .inFlight => ⟨.notAccepted, s⟩
  | .idle =>
    match Reg.ofIndex? select.toNat with
    | none => ⟨.failed (.invalidRegister select.toNat), s⟩
    | some r => ⟨.ok (), s.writeReg r v⟩

/-- DUMP: the ten register values in declaration order (10_state.md R35). -/
def dump (s : State) : Reply (List Word) :=
  match s.loop with
  | .inFlight => ⟨.notAccepted, s⟩
  | .idle => ⟨.ok (Reg.all.map s.readReg), s⟩

/-- LOAD, on the arbiter's grant (20_memory.md R60, R61, R62). -/
def load (i : Nat) (b : Byte) (s : State) : Reply Unit :=
  if grants s.loop .loadPort then
    match s.mem.write1 i b with
    | .error i => ⟨.failed (.outOfBounds i), s⟩
    | .ok m => ⟨.ok (), s.setMem m⟩
  else ⟨.notAccepted, s⟩

/-- STEP: the state after a failure is the state before it (60_exceptions.md R165, R169, R170). -/
def stepPort (s : State) : Reply Unit :=
  match step s with
  | .next t => ⟨.ok (), t⟩
  | .fault f => ⟨.failed f, s⟩
  | .refused _ => ⟨.notAccepted, s⟩

/-- What stands in the cause column of a step result (60_exceptions.md R166): OutOfBounds, which R166 gives no number,
or one of the numbered causes of an ExecutionFailure. -/
inductive ResultCause where
  /-- a cell index outside memory, the cause of every FetchFailure (60_exceptions.md R161) -/
  | outOfBounds
  /-- a cause of an ExecutionFailure (60_exceptions.md R162) -/
  | execution (cause : Cause)
deriving DecidableEq, Repr

/-- The step result record (60_exceptions.md R166); no cause is the `-` of its table. -/
structure ResultRecord where
  code : Nat
  cause : Option ResultCause
  info : Option Nat
deriving DecidableEq, Repr

/-- The numbers of the causes of an ExecutionFailure (60_exceptions.md R166). -/
def Cause.number : Cause → Nat
  | .operandFetch => 0
  | .dataRead => 1
  | .dataWrite => 2
  | .regOffset => 3

/-- The record of a failure (60_exceptions.md R166). The cause of a FetchFailure is OutOfBounds. An
InvalidInstruction's info is the opcode byte; its address is `ip`, unchanged. -/
def Fault.record : Fault → ResultRecord
  | .invalidRegister select => ⟨1, none, some select⟩
  | .outOfBounds index => ⟨2, none, some index⟩
  | .fetchFailure index => ⟨3, some .outOfBounds, some index⟩
  | .executionFailure cause info => ⟨4, some (.execution cause), some info⟩
  | .invalidInstruction opcode _ => ⟨5, none, some opcode.toNat⟩

/-- The record of a port's answer, where it is accepted (60_exceptions.md R166). -/
def PortResult.record {α : Type} : PortResult α → Option ResultRecord
  | .ok _ => some ⟨0, none, none⟩
  | .failed f => some f.record
  | .notAccepted => none

/-- A run with host budget `n`: the results of its STEPs, up to the first that is not Ok, and the state after the last
committed one (60_exceptions.md R180). -/
def runSteps : Nat → State → List (PortResult Unit) × State
  | 0, s => ([], s)
  | n + 1, s =>
    match stepPort s with
    | ⟨.ok (), t⟩ =>
      let (results, u) := runSteps n t
      (.ok () :: results, u)
    | ⟨r, t⟩ => ([r], t)

/-- The host's transactions after CONSTRUCT (00_scope.md R12). -/
inductive Transaction where
  | load (i : Nat) (b : Byte)
  | step
  | regRead (select : BitVec 4)
  | regWrite (select : BitVec 4) (v : Word)
  | dump
deriving DecidableEq, Repr

/-- The state after a transaction. -/
def Transaction.apply (s : State) : Transaction → State
  | .load i b => (Machine.load i b s).state
  | .step => (stepPort s).state
  | .regRead select => (Machine.regRead select s).state
  | .regWrite select v => (Machine.regWrite select v s).state
  | .dump => (Machine.dump s).state

/-- The state after a sequence of transactions: no two overlap (00_scope.md R13). -/
def applyAll (ts : List Transaction) (s : State) : State := ts.foldl Transaction.apply s

end Sys2Proof.Machine
end

