-- ==== Sys2Proof/Safety.lean ====
section
/-! DEFINITION. What counts as a good state and a safe run, and the readings of a state that statements use. -/

namespace Sys2Proof.Machine

/-- What holds of every state between transactions: the memory is in canonical form, the opcode map is injective
(00_scope.md R9), and no instruction is in flight (10_state.md R40). -/
abbrev State.Good (s : State) : Prop :=
  s.mem.Wf ∧ s.params.opcodes.Injective ∧ s.loop = .idle

/-- A safe run: `n` STEPs, every one Ok (60_exceptions.md R180). -/
def SafeRun (n : Nat) (s : State) : Prop :=
  (runSteps n s).1 = List.replicate n (.ok ())

/-- Operand byte `n` of the instruction at `ip`, which is `len` bytes long, is its first one outside memory: the cell
indices of the operand bytes are, in fetch order, `u16(a+1)`, `u16(a+2)`, … (30_encoding.md R81, 60_exceptions.md
R167). -/
abbrev State.FirstMissingOperand (s : State) (len n : Nat) : Prop :=
  1 ≤ n ∧ n < len ∧ (∀ k < n, 1 ≤ k → (s.ip + BitVec.ofNat 16 k).toNat < s.mem.size) ∧
    s.mem.size ≤ (s.ip + BitVec.ofNat 16 n).toNat

/-- The 16-bit value of two bytes, as 10_state.md R22 writes it: `lo + 256 * hi`. -/
def wordOf (hi lo : Byte) : Word := BitVec.ofNat 16 (lo.toNat + 256 * hi.toNat)

/-- Byte `o` of the register storage while the fetch cursor is `cur`: bytes 0 and 1 are the cursor's
(10_state.md R38). -/
def State.storageByte (s : State) (cur : Word) (o : Nat) : Byte :=
  if o = 0 then cur.extractLsb' 0 8 else if o = 1 then cur.extractLsb' 8 8 else s.rs[o]?.getD 0

end Sys2Proof.Machine
end

