-- ==== Sys2Proof/Certificates/Slice0/Obligations.lean ====
section
/-! DEFINITION. The statements for the provers. Each docstring names the rule of spec/ the statement formalises. The
parameters are fields of the state, so "for every state" is "for every `MEM_SIZE`, `OPCODE_BYTE` and
`ADD_OPERAND_DECODE`" (log entry 4). In all of them `s.ip` is the address of the instruction's opcode byte, `s.ip + n`
is 16-bit addition, and `wordOf hi lo` is `lo + 256 * hi`. -/

open Sys2Proof Sys2Proof.Machine

/-! ### Construction -/

/-- 10_state.md R41: what CONSTRUCT leaves, for every choice of parameters and every image. -/
def Obligations.ConstructLeavesZeroRegistersAndImage : Prop :=
  ∀ (p : Params) (image : List Byte),
    (∀ r, (construct p image).readReg r = 0) ∧
    (∀ o, (h : o < 20) → (construct p image).rs[o] = 0) ∧
    (construct p image).loop = .idle ∧
    (∀ i, (construct p image).mem.read1 i = if h : i < image.length then .ok image[i] else .error i) ∧
    (construct p image).params = p

/-- The reset state meets the invariant that every step keeps (`StepKeepsGood`). It rests on the model's reset
parameters: log entries 1 (DESIGN CHOICE), 2 (PRESUMED) and 3. -/
def Obligations.ResetIsGood : Prop := State.reset.Good

/-- 70_reset_and_hazards.md, "With nothing loaded and the default `INIT_IMAGE`, the first STEP fails" (an inference
of the spec's, R193): FetchFailure(0) for an empty memory, else InvalidInstruction(0x00) where 0x00 is no opcode. -/
def Obligations.ZeroMemoryFirstStepFails : Prop :=
  ∀ (p : Params) (n : Nat), 0x00 ∉ p.opcodes.toList →
    stepPort (construct p (List.replicate n 0x00)) =
      ⟨.failed (if n = 0 then .fetchFailure 0 else .invalidInstruction 0x00 0), construct p (List.replicate n 0x00)⟩

/-! ### Where each instruction completes, at the level of `exec` -/

/-- MOV_LIT_REG completes in every state, with every operand, and changes only its destination and `ip`. -/
def Obligations.MovLitRegCompletes : Prop :=
  ∀ (lit : Word) (d : Reg) (s : State), ∃ t, exec (.movLitReg lit d) s = .next t ∧
    (∀ r, t.readReg r = if r = d then lit else if r = .ip then s.ip + 4 else s.readReg r) ∧
    (∀ x, t.mem.read1 x = s.mem.read1 x) ∧ t.params = s.params ∧ t.loop = .idle

/-- MOV_REG_REG completes in every state, with every operand; a source `ip` reads the following address. -/
def Obligations.MovRegRegCompletes : Prop :=
  ∀ (src d : Reg) (s : State), ∃ t, exec (.movRegReg src d) s = .next t ∧
    (∀ r, t.readReg r =
      if r = d then (if src = .ip then s.ip + 3 else s.readReg src)
      else if r = .ip then s.ip + 3 else s.readReg r) ∧
    (∀ x, t.mem.read1 x = s.mem.read1 x) ∧ t.params = s.params ∧ t.loop = .idle

/-- MOV_REG_MEM completes exactly when both cells exist, writes those two and no other, and otherwise fails at the
first that does not exist. -/
def Obligations.MovRegMemCompletes : Prop :=
  ∀ (src : Reg) (addr : Word) (s : State),
    (addr.toNat + 1 < s.mem.size → ∃ t, exec (.movRegMem src addr) s = .next t ∧
      (∀ r, t.readReg r = if r = .ip then s.ip + 4 else s.readReg r) ∧
      (∀ x, t.mem.read1 x =
        if x = addr.toNat then .ok ((if src = .ip then s.ip + 4 else s.readReg src).extractLsb' 0 8)
        else if x = addr.toNat + 1 then .ok ((if src = .ip then s.ip + 4 else s.readReg src).extractLsb' 8 8)
        else s.mem.read1 x) ∧
      t.params = s.params ∧ t.loop = .idle) ∧
    (s.mem.size = addr.toNat + 1 →
      exec (.movRegMem src addr) s = .fault (.executionFailure .dataWrite (addr.toNat + 1))) ∧
    (s.mem.size ≤ addr.toNat →
      exec (.movRegMem src addr) s = .fault (.executionFailure .dataWrite addr.toNat))

/-- MOV_MEM_REG completes exactly when both cells exist, and otherwise fails at the first that does not exist. -/
def Obligations.MovMemRegCompletes : Prop :=
  ∀ (addr : Word) (d : Reg) (s : State),
    (∀ lo hi, s.mem.read1 addr.toNat = .ok lo → s.mem.read1 (addr.toNat + 1) = .ok hi →
      ∃ t, exec (.movMemReg addr d) s = .next t ∧
        (∀ r, t.readReg r = if r = d then wordOf hi lo else if r = .ip then s.ip + 4 else s.readReg r) ∧
        (∀ x, t.mem.read1 x = s.mem.read1 x) ∧ t.params = s.params ∧ t.loop = .idle) ∧
    (s.mem.size = addr.toNat + 1 →
      exec (.movMemReg addr d) s = .fault (.executionFailure .dataRead (addr.toNat + 1))) ∧
    (s.mem.size ≤ addr.toNat →
      exec (.movMemReg addr d) s = .fault (.executionFailure .dataRead addr.toNat))

/-- ADD_REG_REG with register operands completes in every state: `acc` takes the sum modulo `0x10000`, and only `acc`
and `ip` change. -/
def Obligations.AddRegRegOfRegistersCompletes : Prop :=
  ∀ (j k : Reg) (s : State), ∃ t, exec (.addRegReg (.reg j) (.reg k)) s = .next t ∧
    (t.readReg .acc).toNat =
      ((if j = .ip then s.ip + 3 else s.readReg j).toNat + (if k = .ip then s.ip + 3 else s.readReg k).toNat) % 0x10000 ∧
    (∀ r, r ≠ .acc → t.readReg r = if r = .ip then s.ip + 3 else s.readReg r) ∧
    (∀ x, t.mem.read1 x = s.mem.read1 x) ∧ t.params = s.params ∧ t.loop = .idle

/-- ADD_REG_REG with raw offsets completes exactly when both are at most 18, odd ones reading across two registers;
otherwise it fails at the first offset of 19 or more. -/
def Obligations.AddRegRegOfOffsetsCompletes : Prop :=
  ∀ (p q : Byte) (s : State),
    (p.toNat ≤ 18 → q.toNat ≤ 18 → ∃ t, exec (.addRegReg (.offset p) (.offset q)) s = .next t ∧
      (t.readReg .acc).toNat =
        ((wordOf (s.storageByte (s.ip + 3) (p.toNat + 1)) (s.storageByte (s.ip + 3) p.toNat)).toNat +
          (wordOf (s.storageByte (s.ip + 3) (q.toNat + 1)) (s.storageByte (s.ip + 3) q.toNat)).toNat) % 0x10000 ∧
      (∀ r, r ≠ .acc → t.readReg r = if r = .ip then s.ip + 3 else s.readReg r) ∧
      (∀ x, t.mem.read1 x = s.mem.read1 x) ∧ t.params = s.params ∧ t.loop = .idle) ∧
    (19 ≤ p.toNat → exec (.addRegReg (.offset p) (.offset q)) s = .fault (.executionFailure .regOffset p.toNat)) ∧
    (p.toNat ≤ 18 → 19 ≤ q.toNat →
      exec (.addRegReg (.offset p) (.offset q)) s = .fault (.executionFailure .regOffset q.toNat))

/-- JMP_NEQ completes in every state, with every target, and changes only `ip`. -/
def Obligations.JmpNeqCompletes : Prop :=
  ∀ (cmp target : Word) (s : State), ∃ t, exec (.jmpNeq cmp target) s = .next t ∧
    (∀ r, t.readReg r =
      if r = .ip then (if cmp = s.readReg .acc then s.ip + 5 else target) else s.readReg r) ∧
    (∀ x, t.mem.read1 x = s.mem.read1 x) ∧ t.params = s.params ∧ t.loop = .idle

/-! ### The step -/

/-- A step runs the decoded instruction: where the bytes from `ip` upward (wrapping) decode to `i`, the step is
`exec i` in the state that has left `Idle`. -/
def Obligations.StepRunsDecodedInstruction : Prop :=
  ∀ (s : State) (bytes : List Byte) (i : Instr), s.loop = .idle →
    (∀ k, (h : k < bytes.length) → s.mem.read1 (s.ip + BitVec.ofNat 16 k).toNat = .ok bytes[k]) →
    decode s.params bytes = .ok (i, []) →
    step s = exec i (s.setLoop .inFlight)

/-- The same from the encoder's side: a step runs any well-formed instruction whose encoding stands at `ip`, and
leaving `Idle` makes no difference to it. -/
def Obligations.StepRunsEncodedInstruction : Prop :=
  ∀ (s : State) (i : Instr), s.loop = .idle → s.params.opcodes.Injective → i.wellFormed s.params = true →
    (∀ k, (h : k < (encode s.params i).length) →
      s.mem.read1 (s.ip + BitVec.ofNat 16 k).toNat = .ok (encode s.params i)[k]) →
    step s = exec i s

/-- 60_exceptions.md R161: a step whose opcode byte lies outside memory. -/
def Obligations.OpcodeFetchOutOfRangeFails : Prop :=
  ∀ s : State, s.loop = .idle → s.mem.size ≤ s.ip.toNat → step s = .fault (.fetchFailure s.ip.toNat)

/-- 30_encoding.md R90 and 60_exceptions.md R163: the opcode byte alone decides the instruction; a byte outside the
map fails, whether or not operand bytes follow. -/
def Obligations.OpcodeByteDecidesInstruction : Prop :=
  ∀ (s : State) (b : Byte), s.loop = .idle → s.params.opcodes.Injective → s.mem.read1 s.ip.toNat = .ok b →
    (∀ op, decodeOpcode s.params.opcodes b = some op ↔ b = s.params.opcodes.byte op) ∧
    (∀ i cur, fetchInstr s = .ok (i, cur) →
      b = s.params.opcodes.byte i.opcode ∧ cur = s.ip + BitVec.ofNat 16 i.length) ∧
    (b ∉ s.params.opcodes.toList → step s = .fault (.invalidInstruction b s.ip))

/-- 40_data_movement.md R120, whole: a MOV_LIT_REG at `ip`, with every operand byte value, and its failures. -/
def Obligations.StepOfMovLitReg : Prop :=
  ∀ s : State, s.loop = .idle → s.params.opcodes.Injective →
    s.mem.read1 s.ip.toNat = .ok s.params.opcodes.movLitReg →
    (∀ lo hi d, s.mem.read1 (s.ip + 1).toNat = .ok lo → s.mem.read1 (s.ip + 2).toNat = .ok hi →
      s.mem.read1 (s.ip + 3).toNat = .ok d →
      ∃ t, step s = .next t ∧
        (∀ r, t.readReg r = if r.index = d.toNat % 10 then wordOf hi lo else if r = .ip then s.ip + 4 else s.readReg r) ∧
        (∀ x, t.mem.read1 x = s.mem.read1 x) ∧ t.params = s.params ∧ t.loop = .idle) ∧
    (∀ n, s.FirstMissingOperand 4 n →
      step s = .fault (.executionFailure .operandFetch (s.ip + BitVec.ofNat 16 n).toNat))

/-- 40_data_movement.md R122, whole: a MOV_REG_REG at `ip` (decision D7 of the spec for a source `ip`). -/
def Obligations.StepOfMovRegReg : Prop :=
  ∀ s : State, s.loop = .idle → s.params.opcodes.Injective →
    s.mem.read1 s.ip.toNat = .ok s.params.opcodes.movRegReg →
    (∀ (b d : Byte) (src : Reg), s.mem.read1 (s.ip + 1).toNat = .ok b → s.mem.read1 (s.ip + 2).toNat = .ok d →
      src.index = b.toNat % 10 →
      ∃ t, step s = .next t ∧
        (∀ r, t.readReg r =
          if r.index = d.toNat % 10 then (if src = .ip then s.ip + 3 else s.readReg src)
          else if r = .ip then s.ip + 3 else s.readReg r) ∧
        (∀ x, t.mem.read1 x = s.mem.read1 x) ∧ t.params = s.params ∧ t.loop = .idle) ∧
    (∀ n, s.FirstMissingOperand 3 n →
      step s = .fault (.executionFailure .operandFetch (s.ip + BitVec.ofNat 16 n).toNat))

/-- 40_data_movement.md R124, whole: a MOV_REG_MEM at `ip` (decisions D2, D5, D7 of the spec). -/
def Obligations.StepOfMovRegMem : Prop :=
  ∀ s : State, s.loop = .idle → s.params.opcodes.Injective →
    s.mem.read1 s.ip.toNat = .ok s.params.opcodes.movRegMem →
    (∀ (b lo hi : Byte) (src : Reg), s.mem.read1 (s.ip + 1).toNat = .ok b → s.mem.read1 (s.ip + 2).toNat = .ok lo →
      s.mem.read1 (s.ip + 3).toNat = .ok hi → src.index = b.toNat % 10 →
      ((wordOf hi lo).toNat + 1 < s.mem.size → ∃ t, step s = .next t ∧
        (∀ r, t.readReg r = if r = .ip then s.ip + 4 else s.readReg r) ∧
        (∀ x, t.mem.read1 x =
          if x = (wordOf hi lo).toNat then .ok ((if src = .ip then s.ip + 4 else s.readReg src).extractLsb' 0 8)
          else if x = (wordOf hi lo).toNat + 1 then .ok ((if src = .ip then s.ip + 4 else s.readReg src).extractLsb' 8 8)
          else s.mem.read1 x) ∧
        t.params = s.params ∧ t.loop = .idle) ∧
      (s.mem.size = (wordOf hi lo).toNat + 1 →
        step s = .fault (.executionFailure .dataWrite ((wordOf hi lo).toNat + 1))) ∧
      (s.mem.size ≤ (wordOf hi lo).toNat →
        step s = .fault (.executionFailure .dataWrite (wordOf hi lo).toNat))) ∧
    (∀ n, s.FirstMissingOperand 4 n →
      step s = .fault (.executionFailure .operandFetch (s.ip + BitVec.ofNat 16 n).toNat))

/-- 40_data_movement.md R126, whole: a MOV_MEM_REG at `ip` (decisions D2, D5, D7 of the spec). -/
def Obligations.StepOfMovMemReg : Prop :=
  ∀ s : State, s.loop = .idle → s.params.opcodes.Injective →
    s.mem.read1 s.ip.toNat = .ok s.params.opcodes.movMemReg →
    (∀ lo hi d : Byte, s.mem.read1 (s.ip + 1).toNat = .ok lo → s.mem.read1 (s.ip + 2).toNat = .ok hi →
      s.mem.read1 (s.ip + 3).toNat = .ok d →
      (∀ vlo vhi, s.mem.read1 (wordOf hi lo).toNat = .ok vlo → s.mem.read1 ((wordOf hi lo).toNat + 1) = .ok vhi →
        ∃ t, step s = .next t ∧
          (∀ r, t.readReg r =
            if r.index = d.toNat % 10 then wordOf vhi vlo else if r = .ip then s.ip + 4 else s.readReg r) ∧
          (∀ x, t.mem.read1 x = s.mem.read1 x) ∧ t.params = s.params ∧ t.loop = .idle) ∧
      (s.mem.size = (wordOf hi lo).toNat + 1 →
        step s = .fault (.executionFailure .dataRead ((wordOf hi lo).toNat + 1))) ∧
      (s.mem.size ≤ (wordOf hi lo).toNat →
        step s = .fault (.executionFailure .dataRead (wordOf hi lo).toNat))) ∧
    (∀ n, s.FirstMissingOperand 4 n →
      step s = .fault (.executionFailure .operandFetch (s.ip + BitVec.ofNat 16 n).toNat))

/-- 41_arithmetic.md R140, whole: an ADD_REG_REG at `ip`, under both values of `ADD_OPERAND_DECODE` (decisions D3,
D7, D20 of the spec). -/
def Obligations.StepOfAddRegReg : Prop :=
  ∀ s : State, s.loop = .idle → s.params.opcodes.Injective →
    s.mem.read1 s.ip.toNat = .ok s.params.opcodes.addRegReg →
    (∀ p q : Byte, s.mem.read1 (s.ip + 1).toNat = .ok p → s.mem.read1 (s.ip + 2).toNat = .ok q →
      (s.params.addDecode = .reduced →
        ∀ j k : Reg, j.index = p.toNat % 10 → k.index = q.toNat % 10 →
        ∃ t, step s = .next t ∧
          t.readReg .acc =
            (if j = .ip then s.ip + 3 else s.readReg j) + (if k = .ip then s.ip + 3 else s.readReg k) ∧
          (∀ r, r ≠ .acc → t.readReg r = if r = .ip then s.ip + 3 else s.readReg r) ∧
          (∀ x, t.mem.read1 x = s.mem.read1 x) ∧ t.params = s.params ∧ t.loop = .idle) ∧
      (s.params.addDecode = .rawOffset →
        (p.toNat ≤ 18 → q.toNat ≤ 18 → ∃ t, step s = .next t ∧
          t.readReg .acc =
            (wordOf (s.storageByte (s.ip + 3) (p.toNat + 1)) (s.storageByte (s.ip + 3) p.toNat)) +
              (wordOf (s.storageByte (s.ip + 3) (q.toNat + 1)) (s.storageByte (s.ip + 3) q.toNat)) ∧
          (∀ r, r ≠ .acc → t.readReg r = if r = .ip then s.ip + 3 else s.readReg r) ∧
          (∀ x, t.mem.read1 x = s.mem.read1 x) ∧ t.params = s.params ∧ t.loop = .idle) ∧
        (19 ≤ p.toNat → step s = .fault (.executionFailure .regOffset p.toNat)) ∧
        (p.toNat ≤ 18 → 19 ≤ q.toNat → step s = .fault (.executionFailure .regOffset q.toNat)))) ∧
    (∀ n, s.FirstMissingOperand 3 n →
      step s = .fault (.executionFailure .operandFetch (s.ip + BitVec.ofNat 16 n).toNat))

/-- 42_control_transfer.md R150, whole: a JMP_NEQ at `ip` (decision D18 of the spec: the target is not checked). -/
def Obligations.StepOfJmpNeq : Prop :=
  ∀ s : State, s.loop = .idle → s.params.opcodes.Injective →
    s.mem.read1 s.ip.toNat = .ok s.params.opcodes.jmpNeq →
    (∀ clo chi tlo thi : Byte, s.mem.read1 (s.ip + 1).toNat = .ok clo → s.mem.read1 (s.ip + 2).toNat = .ok chi →
      s.mem.read1 (s.ip + 3).toNat = .ok tlo → s.mem.read1 (s.ip + 4).toNat = .ok thi →
      ∃ t, step s = .next t ∧
        (∀ r, t.readReg r =
          if r = .ip then (if wordOf chi clo = s.readReg .acc then s.ip + 5 else wordOf thi tlo)
          else s.readReg r) ∧
        (∀ x, t.mem.read1 x = s.mem.read1 x) ∧ t.params = s.params ∧ t.loop = .idle) ∧
    (∀ n, s.FirstMissingOperand 5 n →
      step s = .fault (.executionFailure .operandFetch (s.ip + BitVec.ofNat 16 n).toNat))

/-! ### Failures -/

/-- 60_exceptions.md section 1: every failure of a step, which instruction raises it and what its info is. A step
never reports InvalidRegister or OutOfBounds. -/
def Obligations.StepFailuresAreTheListedKinds : Prop :=
  ∀ (s : State) (f : Fault), step s = .fault f →
    (f = .fetchFailure s.ip.toNat ∧ s.mem.size ≤ s.ip.toNat) ∨
    (∃ b, s.mem.read1 s.ip.toNat = .ok b ∧ b ∉ s.params.opcodes.toList ∧ f = .invalidInstruction b s.ip) ∨
    (∃ b op n, s.mem.read1 s.ip.toNat = .ok b ∧ decodeOpcode s.params.opcodes b = some op ∧
      s.FirstMissingOperand op.length n ∧
      f = .executionFailure .operandFetch (s.ip + BitVec.ofNat 16 n).toNat) ∨
    (∃ i cur, fetchInstr s = .ok (i, cur) ∧
      ((∃ t d, i = .movMemReg t d ∧
          (s.mem.size ≤ t.toNat ∧ f = .executionFailure .dataRead t.toNat ∨
           s.mem.size = t.toNat + 1 ∧ f = .executionFailure .dataRead (t.toNat + 1))) ∨
       (∃ src t, i = .movRegMem src t ∧
          (s.mem.size ≤ t.toNat ∧ f = .executionFailure .dataWrite t.toNat ∨
           s.mem.size = t.toNat + 1 ∧ f = .executionFailure .dataWrite (t.toNat + 1))) ∨
       (∃ p q, i = .addRegReg (.offset p) (.offset q) ∧ s.params.addDecode = .rawOffset ∧
          (19 ≤ p.toNat ∧ f = .executionFailure .regOffset p.toNat ∨
           p.toNat ≤ 18 ∧ 19 ≤ q.toNat ∧ f = .executionFailure .regOffset q.toNat))))

/-- The instruction set is closed and every instruction has a meaning: an accepted step either commits or fails. -/
def Obligations.AcceptedStepIsNeverRefused : Prop :=
  ∀ (s : State) (r : Refusal), s.loop = .idle → step s ≠ .refused r

/-- 60_exceptions.md R165: a failed STEP commits nothing (decision D6 of the spec). -/
def Obligations.FailedStepCommitsNothing : Prop :=
  ∀ (s : State) (f : Fault), (stepPort s).result = .failed f →
    (stepPort s).state.ip = s.ip ∧
    (∀ r, (stepPort s).state.readReg r = s.readReg r) ∧
    (∀ x, (stepPort s).state.mem.read1 x = s.mem.read1 x) ∧
    (stepPort s).state = s ∧ (stepPort s).state.loop = .idle

/-- 60_exceptions.md, "A STEP issued after a failure with no intervening LOAD or REG_WRITE fails again with the same
result" (an inference of the spec's, R170); reading the registers in between makes no difference. -/
def Obligations.FailedStepRepeats : Prop :=
  ∀ (s : State) (f : Fault) (sel : BitVec 4), (stepPort s).result = .failed f →
    stepPort (stepPort s).state = stepPort s ∧
    stepPort (regRead sel (stepPort s).state).state = stepPort s ∧
    stepPort (dump (stepPort s).state).state = stepPort s

/-- 42_control_transfer.md, "the failure appears at the next step, whose opcode fetch raises FetchFailure(t)" (an
inference of the spec's, R152): after any Ok step that leaves `ip` outside memory, the next STEP fails at the index `ip`
names and leaves the state, `ip` with it, as it was. -/
def Obligations.OutOfRangeTargetFailsAtNextStep : Prop :=
  ∀ s t : State, step s = .next t → t.mem.size ≤ t.ip.toNat →
    stepPort t = ⟨.failed (.fetchFailure t.ip.toNat), t⟩

/-- The table of 60_exceptions.md R166 (decision D8 of the spec): the code, cause and info of each result, and the
numbers of the four causes of an ExecutionFailure. The cause of a FetchFailure is OutOfBounds, to which the table gives
no number; a result whose cause the table shows as `-` has none. -/
def Obligations.ResultRecordsHaveTheListedCodes : Prop :=
  (PortResult.ok ()).record = some ⟨0, none, none⟩ ∧
  (∀ n, (Fault.invalidRegister n).record = ⟨1, none, some n⟩) ∧
  (∀ n, (Fault.outOfBounds n).record = ⟨2, none, some n⟩) ∧
  (∀ n, (Fault.fetchFailure n).record = ⟨3, some .outOfBounds, some n⟩) ∧
  (∀ n, (Fault.executionFailure .operandFetch n).record = ⟨4, some (.execution .operandFetch), some n⟩) ∧
  (∀ n, (Fault.executionFailure .dataRead n).record = ⟨4, some (.execution .dataRead), some n⟩) ∧
  (∀ n, (Fault.executionFailure .dataWrite n).record = ⟨4, some (.execution .dataWrite), some n⟩) ∧
  (∀ n, (Fault.executionFailure .regOffset n).record = ⟨4, some (.execution .regOffset), some n⟩) ∧
  (∀ b a, (Fault.invalidInstruction b a).record = ⟨5, none, some b.toNat⟩) ∧
  Cause.operandFetch.number = 0 ∧ Cause.dataRead.number = 1 ∧ Cause.dataWrite.number = 2 ∧ Cause.regOffset.number = 3

/-! ### Whole-machine rules -/

/-- The invariant: a step from any good state ends, if it ends in a next state, in a good state with the same
parameters and a memory of the same length. -/
def Obligations.StepKeepsGood : Prop :=
  ∀ s t : State, s.Good → step s = .next t → t.Good ∧ t.params = s.params ∧ t.mem.size = s.mem.size

/-- The invariant, for the host: a transaction on a good state, whatever its operands and its answer, leaves a good
state with the same parameters and a memory of the same length. -/
def Obligations.EveryTransactionKeepsGood : Prop :=
  ∀ (s : State) (tx : Transaction), s.Good →
    (tx.apply s).Good ∧ (tx.apply s).params = s.params ∧ (tx.apply s).mem.size = s.mem.size

/-- Whatever transactions the host issues on a constructed machine, in whatever order, the state between them is good,
the parameters are those of construction and the memory's length never changes. -/
def Obligations.TransactionsKeepGood : Prop :=
  ∀ (p : Params) (image : List Byte) (ts : List Transaction), p.opcodes.Injective →
    (applyAll ts (construct p image)).Good ∧ (applyAll ts (construct p image)).params = p ∧
    (applyAll ts (construct p image)).mem.size = image.length

/-- Of the six instructions only MOV_REG_MEM changes memory, and it changes no cell but its two (40_data_movement.md,
"no other cell of `M` and no register other than `ip` changes", an inference of the spec's, R125). -/
def Obligations.OnlyMovRegMemChangesMemory : Prop :=
  ∀ (i : Instr) (s t : State) (x : Nat), exec i s = .next t → t.mem.read1 x ≠ s.mem.read1 x →
    ∃ r addr, i = .movRegMem r addr ∧ (x = addr.toNat ∨ x = addr.toNat + 1) ∧
      ∀ r', r' ≠ .ip → t.readReg r' = s.readReg r'

/-- Only a move's destination and, for ADD_REG_REG, `acc` are written; every other register but `ip` keeps its value
(10_state.md section 3). -/
def Obligations.OnlyDestinationsChange : Prop :=
  ∀ (i : Instr) (s t : State) (r : Reg), exec i s = .next t → r ≠ .ip → t.readReg r ≠ s.readReg r →
    (∃ lit, i = .movLitReg lit r) ∨ (∃ src, i = .movRegReg src r) ∨ (∃ addr, i = .movMemReg addr r) ∨
    (∃ p q, i = .addRegReg p q ∧ r = .acc)

/-- Where `ip` stands after a successful instruction (30_encoding.md section 6, an inference of the spec's, R103): at
the following instruction, unless the instruction writes `ip`, and then at the value written. -/
def Obligations.IpAfterSuccess : Prop :=
  ∀ (i : Instr) (s t : State), exec i s = .next t →
    match i with
    | .movLitReg lit d => t.ip = if d = .ip then lit else s.ip + 4
    | .movRegReg src d => t.ip = if d = .ip ∧ src ≠ .ip then s.readReg src else s.ip + 3
    | .movRegMem _ _ => t.ip = s.ip + 4
    | .movMemReg addr d =>
      if d = .ip then s.mem.read1 addr.toNat = .ok (t.ip.extractLsb' 0 8) ∧
        s.mem.read1 (addr.toNat + 1) = .ok (t.ip.extractLsb' 8 8)
      else t.ip = s.ip + 4
    | .addRegReg _ _ => t.ip = s.ip + 3
    | .jmpNeq cmp target => t.ip = if cmp = s.readReg .acc then s.ip + 5 else target

/-- MOV_REG_REG from a register to itself changes nothing but `ip` (40_data_movement.md, "a 3-byte no-op", an
inference of the spec's, R123). -/
def Obligations.MovRegRegToItselfIsNoOp : Prop :=
  ∀ (r : Reg) (s : State), ∃ t, exec (.movRegReg r r) s = .next t ∧
    (∀ r', t.readReg r' = if r' = .ip then s.ip + 3 else s.readReg r') ∧ t.mem = s.mem

/-- Fetch coherence (20_memory.md, "A byte written by MOV_REG_MEM or by LOAD is seen by every later fetch", an
inference of the spec's, R69): what MOV_REG_MEM or LOAD stores is what the next step fetches there. -/
def Obligations.StoredBytesAreFetched : Prop :=
  (∀ (src : Reg) (addr : Word) (s t : State), exec (.movRegMem src addr) s = .next t →
    fetchByte t.mem addr =
      .ok ((if src = .ip then s.ip + 4 else s.readReg src).extractLsb' 0 8, addr + 1) ∧
    (addr ≠ 0xFFFF → fetchByte t.mem (addr + 1) =
      .ok ((if src = .ip then s.ip + 4 else s.readReg src).extractLsb' 8 8, addr + 2)) ∧
    (∀ c, c ≠ addr → (c ≠ addr + 1 ∨ addr = 0xFFFF) → fetchByte t.mem c = fetchByte s.mem c)) ∧
  (∀ (a : Word) (b : Byte) (s : State), s.loop = .idle → a.toNat < s.mem.size →
    fetchByte (load a.toNat b s).state.mem a = .ok (b, a + 1) ∧
    (∀ c, c ≠ a → fetchByte (load a.toNat b s).state.mem c = fetchByte s.mem c))

/-- Cells above `0x10000` are reached by no step (20_memory.md section 2, R8 and R56 of the spec): two states that
differ only there step alike, and go on differing only there. -/
def Obligations.StepIgnoresCellsAboveReach : Prop :=
  ∀ s s' : State, s.params = s'.params → s.rs = s'.rs → s.loop = s'.loop → s.mem.size = s'.mem.size →
    (∀ x, x ≤ 0x10000 → s.mem.read1 x = s'.mem.read1 x) →
    (∀ f, step s = .fault f ↔ step s' = .fault f) ∧
    (∀ t, step s = .next t → ∃ t', step s' = .next t' ∧ t.rs = t'.rs ∧ t.loop = t'.loop ∧ t.params = t'.params ∧
      (∀ x, x ≤ 0x10000 → t.mem.read1 x = t'.mem.read1 x) ∧
      (∀ x, 0x10000 < x → t.mem.read1 x = s.mem.read1 x ∧ t'.mem.read1 x = s'.mem.read1 x))

/-! ### Registers and memory -/

/-- 10_state.md R22: a register is the little-endian value of its two bytes. -/
def Obligations.RegisterReadIsLittleEndian : Prop :=
  ∀ (s : State) (r : Reg) (lo hi : Byte), s.rs[2 * r.index]? = some lo → s.rs[2 * r.index + 1]? = some hi →
    s.readReg r = wordOf hi lo ∧ (s.readReg r).toNat = lo.toNat + 256 * hi.toNat

/-- 10_state.md R23: a register write sets the two bytes of its slot and no other. -/
def Obligations.RegisterWriteSetsItsSlot : Prop :=
  ∀ (s : State) (r : Reg) (v : Word) (o : Nat) (h : o < 20),
    (s.writeReg r v).rs[o] =
      if o = 2 * r.index then v.extractLsb' 0 8
      else if o = 2 * r.index + 1 then v.extractLsb' 8 8
      else s.rs[o]

/-- 10_state.md section 5: the offset access of ADD_REG_REG's raw mode; odd offsets straddle two registers. -/
def Obligations.OffsetReadStraddles : Prop :=
  ∀ (rs : RegStorage) (o : Nat),
    (∀ lo hi : Byte, rs[o]? = some lo → rs[o + 1]? = some hi → rs.read16 o = .ok (wordOf hi lo)) ∧
    (19 ≤ o → rs.read16 o = .error o) ∧
    (∀ r : Reg, rs.read16 (2 * r.index) = .ok (rs.read r)) ∧
    (∀ r r' : Reg, r'.index = r.index + 1 →
      rs.read16 (2 * r.index + 1) = .ok (wordOf ((rs.read r').extractLsb' 0 8) ((rs.read r).extractLsb' 8 8)))

/-- The read primitives (20_memory.md R53) on the model's list of cells: a cell of a memory in canonical form holds the
byte listed for it, and a cell that is not listed holds 0x00. What a list of cells stands for is the model's choice, not
a rule of the spec's (log entry 5: an unlisted cell reads as the zero of the default INIT_IMAGE). -/
def Obligations.MemoryReadPrimitives : Prop :=
  ∀ (m : Memory) (i : Nat),
    (i < m.size → (∀ c ∈ m.cells, c.1 ≠ i) → m.read1 i = .ok 0) ∧
    (∀ b, m.Wf → (i, b) ∈ m.cells → m.read1 i = .ok b) ∧
    (m.size ≤ i → m.read1 i = .error i) ∧
    (∀ lo hi, m.read1 i = .ok lo → m.read1 (i + 1) = .ok hi → m.read2 i = .ok (wordOf hi lo)) ∧
    (m.size = i + 1 → m.read2 i = .error (i + 1)) ∧ (m.size ≤ i → m.read2 i = .error i)

/-- 20_memory.md R54: the write primitives; a 2-byte write writes both cells or neither (decision D6 of the spec). -/
def Obligations.MemoryWritePrimitives : Prop :=
  ∀ (m : Memory) (i : Nat) (b : Byte) (v : Word),
    (i < m.size → ∃ m', m.write1 i b = .ok m' ∧ ∀ x, m'.read1 x = if x = i then .ok b else m.read1 x) ∧
    (m.size ≤ i → m.write1 i b = .error i) ∧
    (i + 1 < m.size → ∃ m', m.write2 i v = .ok m' ∧
      ∀ x, m'.read1 x =
        if x = i then .ok (v.extractLsb' 0 8) else if x = i + 1 then .ok (v.extractLsb' 8 8) else m.read1 x) ∧
    (m.size = i + 1 → m.write2 i v = .error (i + 1)) ∧ (m.size ≤ i → m.write2 i v = .error i)

/-- 20_memory.md, "A 2-byte access and single-byte accesses to the same cells see one and the same array" (an
inference of the spec's, R59). -/
def Obligations.MixedWidthAccessesAgree : Prop :=
  ∀ (m m' : Memory) (i : Nat) (v : Word), m.write2 i v = .ok m' →
    m'.read1 i = .ok (v.extractLsb' 0 8) ∧ m'.read1 (i + 1) = .ok (v.extractLsb' 8 8) ∧ m'.read2 i = .ok v ∧
    (∀ b, m.read1 (i + 2) = .ok b → m'.read2 (i + 1) = .ok (wordOf b (v.extractLsb' 8 8))) ∧
    (∀ j b, j + 1 = i → m.read1 j = .ok b → m'.read2 j = .ok (wordOf (v.extractLsb' 0 8) b))

/-! ### Host ports -/

/-- The register ports (10_state.md section 4; 95_test_vectors.md S1, S2). -/
def Obligations.RegWriteThenReadBack : Prop :=
  ∀ (s : State) (sel : BitVec 4) (v : Word), s.loop = .idle →
    (sel.toNat ≤ 9 → ∃ t, regWrite sel v s = ⟨.ok (), t⟩ ∧ regRead sel t = ⟨.ok v, t⟩ ∧
      (∀ r : Reg, r.index ≠ sel.toNat → t.readReg r = s.readReg r) ∧
      (sel = 0 → t.ip = v) ∧ t.mem = s.mem ∧ t.params = s.params ∧ t.loop = .idle) ∧
    (10 ≤ sel.toNat →
      regWrite sel v s = ⟨.failed (.invalidRegister sel.toNat), s⟩ ∧
      regRead sel s = ⟨.failed (.invalidRegister sel.toNat), s⟩)

/-- 10_state.md R35, R36: DUMP lists the ten registers in declaration order; neither DUMP nor REG_READ changes
anything, so a second one answers the same. -/
def Obligations.DumpIsAReadOnlyQuery : Prop :=
  ∀ (s : State) (sel : BitVec 4), s.loop = .idle →
    dump s = ⟨.ok [s.ip, s.readReg .acc, s.readReg .r1, s.readReg .r2, s.readReg .r3, s.readReg .r4,
      s.readReg .r5, s.readReg .r6, s.readReg .r7, s.readReg .r8], s⟩ ∧
    dump (dump s).state = dump s ∧
    (regRead sel s).state = s ∧ regRead sel (regRead sel s).state = regRead sel s

/-- 20_memory.md R60, R61: LOAD writes one cell and changes nothing else, or fails OutOfBounds and changes nothing. -/
def Obligations.LoadWritesOneCell : Prop :=
  ∀ (s : State) (i : Nat) (b : Byte), s.loop = .idle →
    (i < s.mem.size → ∃ t, load i b s = ⟨.ok (), t⟩ ∧
      (∀ x, t.mem.read1 x = if x = i then .ok b else s.mem.read1 x) ∧
      (∀ r, t.readReg r = s.readReg r) ∧ t.params = s.params ∧ t.loop = .idle) ∧
    (s.mem.size ≤ i → load i b s = ⟨.failed (.outOfBounds i), s⟩)

/-- Every port waits for `Idle` (10_state.md R34, 20_memory.md R62). The answer given otherwise, "not accepted" with
the state unchanged, is the model's choice: log entry 12. -/
def Obligations.PortsWaitForIdle : Prop :=
  ∀ (s : State) (i : Nat) (b : Byte) (sel : BitVec 4) (v : Word), s.loop = .inFlight →
    stepPort s = ⟨.notAccepted, s⟩ ∧ load i b s = ⟨.notAccepted, s⟩ ∧ regRead sel s = ⟨.notAccepted, s⟩ ∧
    regWrite sel v s = ⟨.notAccepted, s⟩ ∧ dump s = ⟨.notAccepted, s⟩

/-- 60_exceptions.md section 5: a run with budget `n` is `n` Ok results, or fewer Ok results and then the first
failure; its final state is the one after the last committed step, which the host's own runner reaches too. -/
def Obligations.RunEndsAtBudgetOrFirstFailure : Prop :=
  ∀ (n : Nat) (s : State), s.loop = .idle →
    ((runSteps n s).1 = List.replicate n (.ok ()) ∧ core.run n s = .next (runSteps n s).2) ∨
    (∃ k f, k < n ∧ (runSteps n s).1 = List.replicate k (.ok ()) ++ [.failed f] ∧
      core.run k s = .next (runSteps n s).2 ∧ step (runSteps n s).2 = .fault f)

/-- A JMP_NEQ that names its own address runs for ever while `acc` differs from its comparison value (42_control_transfer.md,
"loops on itself forever"): under every budget the run is safe and the state is where it began. -/
def Obligations.SelfJumpRunsForever : Prop :=
  ∀ (s : State) (c : Word) (n : Nat), s.loop = .idle → s.params.opcodes.Injective → c ≠ s.readReg .acc →
    (∀ k, (h : k < (encode s.params (.jmpNeq c s.ip)).length) →
      s.mem.read1 (s.ip + BitVec.ofNat 16 k).toNat = .ok (encode s.params (.jmpNeq c s.ip))[k]) →
    SafeRun n s ∧ (runSteps n s).2 = s

/-! ### Encoding -/

/-- 30_encoding.md R81, R82: the fetch primitives over memory; both wrap at `0xFFFF` (decision D4 of the spec). -/
def Obligations.FetchReadsLowByteFirst : Prop :=
  ∀ (m : Memory) (cur : Word),
    (∀ b, m.read1 cur.toNat = .ok b → fetchByte m cur = .ok (b, cur + 1)) ∧
    (m.size ≤ cur.toNat → fetchByte m cur = .error cur.toNat) ∧
    (∀ lo hi, m.read1 cur.toNat = .ok lo → m.read1 (cur + 1).toNat = .ok hi →
      fetchWide (fetchByte m) cur = .ok (wordOf hi lo, cur + 2)) ∧
    (m.size ≤ cur.toNat → fetchWide (fetchByte m) cur = .error cur.toNat) ∧
    (cur.toNat < m.size → m.size ≤ (cur + 1).toNat → fetchWide (fetchByte m) cur = .error (cur + 1).toNat)

/-- 30_encoding.md R83: a register operand byte is reduced modulo 10, whatever the byte, and the fetch fails only if
reading the byte does. -/
def Obligations.FetchRegIndexReducesModuloTen : Prop :=
  ∀ (σ ε : Type) (get : σ → Except ε (Byte × σ)) (c : σ),
    (∀ b c', get c = .ok (b, c') → ∃ r : Reg, fetchReg get c = .ok (r, c') ∧ r.index = b.toNat % 10) ∧
    (∀ e, get c = .error e → fetchReg get c = .error e)

/-- A few words written out from 30_encoding.md R96, R94 decode to the instructions they stand for. It rests on the
spec's default opcode bytes: log entry 2 (PRESUMED). -/
def Obligations.SampleWordsDecode : Prop :=
  decode defaultParams [0x10, 0x34, 0x12, 0x0C] = .ok (.movLitReg 0x1234 .r1, []) ∧
  decode defaultParams [0x12, 0x04, 0x40, 0x00] = .ok (.movRegMem .r3 0x0040, []) ∧
  decode defaultParams [0x14, 0x02, 0x03] = .ok (.addRegReg (.reg .r1) (.reg .r2), []) ∧
  decode defaultParams [0x15, 0x00, 0x00, 0x08, 0x00] = .ok (.jmpNeq 0x0000 0x0008, [])

/-- Decode and encode agree: for every injective opcode map, either `ADD_OPERAND_DECODE`, and every well-formed
instruction, decoding its encoding gives it back and leaves the bytes after it. -/
def Obligations.DecodeEncodeAgree : Prop :=
  ∀ (p : Params) (i : Instr) (rest : List Byte), p.opcodes.Injective → i.wellFormed p = true →
    decode p (encode p i ++ rest) = .ok (i, rest)

/-- The other direction: whatever bytes decode, the instruction is well-formed, takes exactly its length of bytes, and
its encoding is those bytes but for register bytes, which become canonical. -/
def Obligations.DecodedBytesReencode : Prop :=
  ∀ (p : Params) (bytes rest : List Byte) (i : Instr), decode p bytes = .ok (i, rest) →
    i.wellFormed p = true ∧ decode p (encode p i ++ rest) = .ok (i, rest) ∧
    ∃ used, bytes = used ++ rest ∧ used.length = i.length ∧
      ∀ (k : Nat) (b : Byte), used[k]? = some b →
        ∃ b', (encode p i)[k]? = some b' ∧ (b' = b ∨ b'.toNat = b.toNat % 10)
end

