-- ==== Sys2Proof/Laws/State.lean ====
section
/-! SUPPORT. One lemma per field of `State` per update, so that no later proof unfolds a record update. -/

namespace Sys2Proof.Machine

section Fields

variable (s : State) (m : Memory) (rs : RegStorage) (l : LoopState) (p : Params) (r : Reg) (v : Word)

@[simp] theorem State.setMem_mem : (s.setMem m).mem = m := rfl
@[simp] theorem State.setMem_rs : (s.setMem m).rs = s.rs := rfl
@[simp] theorem State.setMem_loop : (s.setMem m).loop = s.loop := rfl
@[simp] theorem State.setMem_params : (s.setMem m).params = s.params := rfl

@[simp] theorem State.setRs_mem : (s.setRs rs).mem = s.mem := rfl
@[simp] theorem State.setRs_rs : (s.setRs rs).rs = rs := rfl
@[simp] theorem State.setRs_loop : (s.setRs rs).loop = s.loop := rfl
@[simp] theorem State.setRs_params : (s.setRs rs).params = s.params := rfl

@[simp] theorem State.setLoop_mem : (s.setLoop l).mem = s.mem := rfl
@[simp] theorem State.setLoop_rs : (s.setLoop l).rs = s.rs := rfl
@[simp] theorem State.setLoop_loop : (s.setLoop l).loop = l := rfl
@[simp] theorem State.setLoop_params : (s.setLoop l).params = s.params := rfl

@[simp] theorem State.writeReg_mem : (s.writeReg r v).mem = s.mem := rfl
@[simp] theorem State.writeReg_rs : (s.writeReg r v).rs = s.rs.write r v := rfl
@[simp] theorem State.writeReg_loop : (s.writeReg r v).loop = s.loop := rfl
@[simp] theorem State.writeReg_params : (s.writeReg r v).params = s.params := rfl

@[simp] theorem State.leaveIdle_mem : s.leaveIdle.mem = s.mem := rfl
@[simp] theorem State.leaveIdle_rs : s.leaveIdle.rs = s.rs := rfl
@[simp] theorem State.leaveIdle_loop : s.leaveIdle.loop = .inFlight := rfl
@[simp] theorem State.leaveIdle_params : s.leaveIdle.params = s.params := rfl

@[simp] theorem State.construct_mem : (State.construct p m).mem = m := rfl
@[simp] theorem State.construct_rs : (State.construct p m).rs = Vector.replicate 20 0x00 := rfl
@[simp] theorem State.construct_loop : (State.construct p m).loop = .idle := rfl
@[simp] theorem State.construct_params : (State.construct p m).params = p := rfl

end Fields

section Registers

variable (s : State) (m : Memory) (l : LoopState) (r : Reg)

@[simp] theorem State.setMem_readReg : (s.setMem m).readReg r = s.readReg r := rfl
@[simp] theorem State.setLoop_readReg : (s.setLoop l).readReg r = s.readReg r := rfl
@[simp] theorem State.leaveIdle_readReg : s.leaveIdle.readReg r = s.readReg r := rfl
@[simp] theorem State.leaveIdle_ip : s.leaveIdle.ip = s.ip := rfl
@[simp] theorem State.readReg_ip : s.readReg .ip = s.ip := rfl

end Registers

end Sys2Proof.Machine
end

