-- ==== Sys2Proof/Laws/Memory.lean ====
section
/-! SUPPORT. Memory: reading after writing, the one thing each operation can do, and the canonical form, which every
operation keeps. -/

namespace Sys2Proof.Machine

/-! ### Lists of cells -/

theorem lookupCell_filter_ne {a x : Nat} (hx : x ≠ a) (cs : List Host.Cell) :
    lookupCell x (cs.filter fun c => c.1 ≠ a) = lookupCell x cs := by
  induction cs with
  | nil => rfl
  | cons c cs ih =>
    by_cases hc : c.1 = a
    · simpa [hc, lookupCell, Ne.symm hx] using ih
    · simp only [List.filter_cons, hc, ne_eq, not_false_eq_true, decide_true, if_true, lookupCell]
      rw [← ih]

theorem lookupCell_of_absent {x : Nat} {cs : List Host.Cell} (h : ∀ c ∈ cs, c.1 ≠ x) :
    lookupCell x cs = unlistedByte := by
  induction cs with
  | nil => rfl
  | cons c cs ih =>
    simp only [List.mem_cons, forall_eq_or_imp] at h
    simp [lookupCell, h.1, ih h.2]

theorem lookupCell_of_mem {x : Nat} {b : Byte} {cs : List Host.Cell} (hcs : cs.Pairwise fun c d => c.1 < d.1)
    (h : (x, b) ∈ cs) : lookupCell x cs = b := by
  induction cs with
  | nil => cases h
  | cons c cs ih =>
    simp only [List.pairwise_cons] at hcs
    rcases List.mem_cons.1 h with rfl | h
    · simp [lookupCell]
    · have hlt := hcs.1 _ h
      have hne : ¬c.1 = x := by simp only at hlt; omega
      simp only [lookupCell, hne, if_false, ih hcs.2 h]

theorem lookupCell_placeCell {c : Host.Cell} {cs : List Host.Cell} (h : ∀ d ∈ cs, d.1 ≠ c.1) (x : Nat) :
    lookupCell x (placeCell c cs) = if c.1 = x then c.2 else lookupCell x cs := by
  induction cs with
  | nil => rfl
  | cons d ds ih =>
    simp only [List.mem_cons, forall_eq_or_imp] at h
    by_cases hlt : c.1 < d.1
    · simp [placeCell, hlt, lookupCell]
    · simp only [placeCell, hlt, if_false, lookupCell, ih h.2]
      split_ifs <;> first | rfl | omega

/-- A store makes its own byte read as stored and leaves every other byte, whatever the list. -/
theorem lookupCell_storeCell (a : Nat) (b : Byte) (cs : List Host.Cell) (x : Nat) :
    lookupCell x (storeCell a b cs) = if x = a then b else lookupCell x cs := by
  have habs : ∀ c ∈ cs.filter (fun c => c.1 ≠ a), c.1 ≠ a := by simp
  have hplace := lookupCell_placeCell (c := (a, b)) habs x
  unfold storeCell
  by_cases hx : x = a
  · subst hx
    by_cases hb : b = unlistedByte
    · simpa only [hb, if_true] using lookupCell_of_absent habs
    · simpa only [hb, if_false, if_true] using hplace
  · by_cases hb : b = unlistedByte
    · simpa only [hb, if_true, hx, if_false] using lookupCell_filter_ne hx cs
    · simpa only [hb, if_false, hx, Ne.symm hx, lookupCell_filter_ne hx] using hplace

theorem mem_placeCell {c d : Host.Cell} {cs : List Host.Cell} : d ∈ placeCell c cs ↔ d = c ∨ d ∈ cs := by
  induction cs with
  | nil => simp [placeCell]
  | cons e es ih =>
    by_cases h : c.1 < e.1
    · simp [placeCell, h]
    · simp only [placeCell, h, if_false, List.mem_cons, ih]
      tauto

theorem mem_storeCell {a : Nat} {b : Byte} {cs : List Host.Cell} {c : Host.Cell} (h : c ∈ storeCell a b cs) :
    (c = (a, b) ∧ b ≠ unlistedByte) ∨ c ∈ cs := by
  unfold storeCell at h
  by_cases hb : b = unlistedByte
  · simp only [hb, if_true] at h
    exact .inr (List.mem_filter.1 h).1
  · simp only [hb, if_false, mem_placeCell] at h
    exact h.imp (fun e => ⟨e, hb⟩) fun e => (List.mem_filter.1 e).1

theorem placeCell_rising {c : Host.Cell} {cs : List Host.Cell} (hcs : cs.Pairwise fun d e => d.1 < e.1)
    (h : ∀ d ∈ cs, d.1 ≠ c.1) : (placeCell c cs).Pairwise fun d e => d.1 < e.1 := by
  induction cs with
  | nil => simp [placeCell]
  | cons d ds ih =>
    simp only [List.pairwise_cons] at hcs
    simp only [List.mem_cons, forall_eq_or_imp] at h
    by_cases hlt : c.1 < d.1
    · rw [placeCell, if_pos hlt]
      simp only [List.pairwise_cons, List.mem_cons, forall_eq_or_imp]
      exact ⟨⟨hlt, fun e he => hlt.trans (hcs.1 e he)⟩, hcs⟩
    · simp only [placeCell, hlt, if_false, List.pairwise_cons, mem_placeCell, forall_eq_or_imp]
      have := h.1
      exact ⟨⟨by omega, hcs.1⟩, ih hcs.2 h.2⟩

theorem storeCell_rising {a : Nat} {b : Byte} {cs : List Host.Cell} (h : cs.Pairwise fun d e => d.1 < e.1) :
    (storeCell a b cs).Pairwise fun d e => d.1 < e.1 := by
  have hf := h.filter fun c => c.1 ≠ a
  unfold storeCell
  by_cases hb : b = unlistedByte
  · simpa [hb] using hf
  · simpa [hb] using placeCell_rising (c := (a, b)) hf (by simp)

/-! ### The accesses -/

/-- What a 1-byte read can answer (20_memory.md R53). -/
theorem Memory.read1_eq (m : Memory) (i : Nat) :
    m.read1 i = if i < m.size then .ok (lookupCell i m.cells) else .error i := rfl

theorem Memory.read1_eq_ok {m : Memory} {i : Nat} {b : Byte} :
    m.read1 i = .ok b ↔ i < m.size ∧ lookupCell i m.cells = b := by
  unfold Memory.read1
  split_ifs with h <;> simp [h]

theorem Memory.read1_eq_error {m : Memory} {i j : Nat} : m.read1 i = .error j ↔ m.size ≤ i ∧ j = i := by
  unfold Memory.read1
  split_ifs with h
  · simp; omega
  · simp; omega

/-- What a 1-byte write can do (20_memory.md R54). -/
theorem Memory.write1_eq_ok {m m' : Memory} {i : Nat} {b : Byte} :
    m.write1 i b = .ok m' ↔ i < m.size ∧ m' = { m with cells := storeCell i b m.cells } := by
  unfold Memory.write1
  split_ifs with h <;> simp [h, eq_comm]

theorem Memory.write1_eq_error {m : Memory} {i j : Nat} {b : Byte} :
    m.write1 i b = .error j ↔ m.size ≤ i ∧ j = i := by
  unfold Memory.write1
  split_ifs with h
  · simp; omega
  · simp; omega

theorem Memory.write1_spec {m m' : Memory} {i : Nat} {b : Byte} (h : m.write1 i b = .ok m') :
    m'.size = m.size ∧ ∀ x, m'.read1 x = if x = i then .ok b else m.read1 x := by
  obtain ⟨hi, rfl⟩ := Memory.write1_eq_ok.1 h
  refine ⟨rfl, fun x => ?_⟩
  simp only [Memory.read1, lookupCell_storeCell]
  split_ifs <;> first | rfl | omega

theorem Memory.write1_wf {m m' : Memory} {i : Nat} {b : Byte} (hm : m.Wf) (h : m.write1 i b = .ok m') : m'.Wf := by
  obtain ⟨hi, rfl⟩ := Memory.write1_eq_ok.1 h
  refine ⟨storeCell_rising hm.1, fun c hc => ?_⟩
  rcases mem_storeCell hc with ⟨rfl, hb⟩ | hc
  · exact ⟨hi, hb⟩
  · exact hm.2 c hc

/-- What a 2-byte read can answer (20_memory.md R53). -/
theorem Memory.read2_eq (m : Memory) (i : Nat) :
    m.read2 i =
      if i + 1 < m.size then .ok (joinBytes (lookupCell (i + 1) m.cells) (lookupCell i m.cells))
      else if i < m.size then .error (i + 1) else .error i := by
  unfold Memory.read2 Memory.read1
  by_cases h : i + 1 < m.size
  · have h' : i < m.size := by omega
    simp [h, h', bind, Except.bind, pure, Except.pure]
  · by_cases h' : i < m.size <;> simp [h, h', bind, Except.bind]

/-- What a 2-byte write can answer: it writes both cells or fails at the first index out of bounds
(20_memory.md R54). -/
theorem Memory.write2_eq (m : Memory) (i : Nat) (v : Word) :
    m.write2 i v =
      if i + 1 < m.size then
        .ok { m with cells := storeCell (i + 1) (highByte v) (storeCell i (lowByte v) m.cells) }
      else if i < m.size then .error (i + 1) else .error i := by
  unfold Memory.write2 Memory.write1
  by_cases h : i + 1 < m.size
  · have h' : i < m.size := by omega
    simp [h, h', bind, Except.bind]
  · by_cases h' : i < m.size <;> simp [h, h', bind, Except.bind]

theorem Memory.write2_eq_ok {m m' : Memory} {i : Nat} {v : Word} :
    m.write2 i v = .ok m' ↔
      i + 1 < m.size ∧ m' = { m with cells := storeCell (i + 1) (highByte v) (storeCell i (lowByte v) m.cells) } := by
  rw [Memory.write2_eq]
  split_ifs with h h' <;> simp [h, eq_comm]

theorem Memory.write2_spec {m m' : Memory} {i : Nat} {v : Word} (h : m.write2 i v = .ok m') :
    m'.size = m.size ∧
      ∀ x, m'.read1 x = if x = i then .ok (lowByte v) else if x = i + 1 then .ok (highByte v) else m.read1 x := by
  obtain ⟨hi, rfl⟩ := Memory.write2_eq_ok.1 h
  refine ⟨rfl, fun x => ?_⟩
  simp only [Memory.read1, lookupCell_storeCell]
  split_ifs <;> first | rfl | omega

theorem Memory.write2_wf {m m' : Memory} {i : Nat} {v : Word} (hm : m.Wf) (h : m.write2 i v = .ok m') : m'.Wf := by
  obtain ⟨hi, rfl⟩ := Memory.write2_eq_ok.1 h
  refine ⟨storeCell_rising (storeCell_rising hm.1), fun c hc => ?_⟩
  rcases mem_storeCell hc with ⟨rfl, hb⟩ | hc
  · exact ⟨hi, hb⟩
  rcases mem_storeCell hc with ⟨rfl, hb⟩ | hc
  · exact ⟨by simp only; omega, hb⟩
  · exact hm.2 c hc

/-! ### Images -/

theorem mem_imageCells {a : Nat} {image : List Byte} {c : Host.Cell} (h : c ∈ imageCells a image) :
    a ≤ c.1 ∧ c.1 < a + image.length ∧ c.2 ≠ unlistedByte := by
  induction image generalizing a with
  | nil => simp [imageCells] at h
  | cons b bs ih =>
    have hrec : c ∈ imageCells (a + 1) bs → a ≤ c.1 ∧ c.1 < a + (b :: bs).length ∧ c.2 ≠ unlistedByte := by
      intro hc
      obtain ⟨h1, h2, h3⟩ := ih hc
      exact ⟨by omega, by simp only [List.length_cons]; omega, h3⟩
    unfold imageCells at h
    split_ifs at h with hb
    · exact hrec h
    · rcases List.mem_cons.1 h with rfl | h
      · exact ⟨le_refl _, by simp, hb⟩
      · exact hrec h

theorem imageCells_rising (a : Nat) (image : List Byte) : (imageCells a image).Pairwise fun c d => c.1 < d.1 := by
  induction image generalizing a with
  | nil => exact List.Pairwise.nil
  | cons b bs ih =>
    unfold imageCells
    split_ifs
    · exact ih _
    · exact List.pairwise_cons.2 ⟨fun d hd => (mem_imageCells hd).1, ih _⟩

theorem Memory.ofImage_wf (image : List Byte) : (Memory.ofImage image).Wf :=
  ⟨imageCells_rising _ _, fun _ hc => ⟨by simpa [Memory.ofImage] using (mem_imageCells hc).2.1, (mem_imageCells hc).2.2⟩⟩

theorem Memory.new_wf (n : Nat) : (Memory.new n).Wf :=
  ⟨List.Pairwise.nil, fun _ h => by simp [Memory.new] at h⟩

theorem lookupCell_imageCells (a : Nat) (image : List Byte) (k : Nat) (hk : k < image.length) :
    lookupCell (a + k) (imageCells a image) = image[k] := by
  induction image generalizing a k with
  | nil => simp at hk
  | cons b bs ih =>
    cases k with
    | zero =>
      unfold imageCells
      split_ifs with hb
      · simpa [hb] using lookupCell_of_absent fun c hc => by have := (mem_imageCells hc).1; omega
      · simp [lookupCell]
    | succ k =>
      have hstep : lookupCell (a + (k + 1)) (imageCells a (b :: bs)) = lookupCell (a + 1 + k) (imageCells (a + 1) bs) := by
        have he : a + (k + 1) = a + 1 + k := by omega
        rw [he, imageCells]
        split_ifs with hb
        · rfl
        · have hne : ¬a = a + 1 + k := by omega
          simp only [lookupCell, hne, if_false]
      simpa [hstep] using ih (a + 1) k (by simpa using hk)

/-- An unlisted memory is one whose image is all zero, so the reset memory holds the default `INIT_IMAGE`
(00_scope.md R11). -/
theorem Memory.ofImage_zeros (n : Nat) : Memory.ofImage (List.replicate n unlistedByte) = Memory.new n := by
  have h : ∀ a, imageCells a (List.replicate n unlistedByte) = [] := by
    induction n with
    | zero => intro a; rfl
    | succ n ih => intro a; simp [List.replicate_succ, imageCells, ih]
  simp [Memory.ofImage, Memory.new, h]

/-! ### The fetch primitive and the host's placement -/

/-- What a fetch can answer (30_encoding.md R81). -/
theorem fetchByte_eq (m : Memory) (cur : Word) :
    fetchByte m cur =
      if cur.toNat < m.size then .ok (lookupCell cur.toNat m.cells, advance cur 1) else .error cur.toNat := by
  unfold fetchByte Memory.read1
  split_ifs <;> rfl

theorem placeBytes_spec (m : Memory) (a : Word) (bs : List Byte) (hm : m.Wf) :
    (placeBytes m a bs).Wf ∧ (placeBytes m a bs).size = m.size := by
  induction bs generalizing m a with
  | nil => exact ⟨hm, rfl⟩
  | cons b bs ih =>
    unfold placeBytes
    cases h : m.write1 a.toNat b with
    | error i => exact ih m _ hm
    | ok m' =>
      have hs := (Memory.write1_spec h).1
      exact ⟨(ih m' _ (Memory.write1_wf hm h)).1, (ih m' _ (Memory.write1_wf hm h)).2.trans hs⟩

end Sys2Proof.Machine
end

