-- ==== Sys2Proof/Laws/Registers.lean ====
section
/-! SUPPORT. The register file: reading after writing, the numbering, and what a source operand reads. -/

namespace Sys2Proof

theorem Reg.index_injective {r r' : Reg} (h : r.index = r'.index) : r = r' := by
  revert h
  cases r <;> cases r' <;> decide

theorem Reg.index_eq_index {r r' : Reg} : r.index = r'.index ↔ r = r' :=
  ⟨Reg.index_injective, fun h => h ▸ rfl⟩

/-- Every index below 10 names the register that has it, and no other index names one (10_state.md R21). -/
theorem Reg.ofIndex?_eq_some {k : Nat} {r : Reg} : Reg.ofIndex? k = some r ↔ r.index = k := by
  constructor
  · unfold Reg.ofIndex?
    split <;> simp <;> rintro rfl <;> rfl
  · rintro rfl
    cases r <;> rfl

theorem Reg.ofIndex?_eq_none {k : Nat} (h : 10 ≤ k) : Reg.ofIndex? k = none := by
  cases hk : Reg.ofIndex? k with
  | none => rfl
  | some r =>
    have := Reg.ofIndex?_eq_some.1 hk
    have := r.index_lt
    omega

theorem Reg.exists_index {k : Nat} (h : k < 10) : ∃ r : Reg, r.index = k := by
  refine ⟨(Reg.ofIndex? k).getD .ip, ?_⟩
  interval_cases k <;> rfl

/-- A register operand byte names the register whose index is the byte modulo 10 (30_encoding.md R83). -/
theorem Reg.index_ofByte (b : Byte) : (Reg.ofByte b).index = b.toNat % 10 := by
  obtain ⟨r, hr⟩ := Reg.exists_index (Nat.mod_lt b.toNat (by omega : 10 > 0))
  have h : Reg.ofIndex? (b.toNat % regCount) = some r := Reg.ofIndex?_eq_some.2 hr
  simp [Reg.ofByte, h, hr]

theorem Reg.ofByte_eq {b : Byte} {r : Reg} (h : r.index = b.toNat % 10) : Reg.ofByte b = r :=
  Reg.index_injective ((Reg.index_ofByte b).trans h.symm)

@[simp] theorem Reg.ofByte_toByte (r : Reg) : Reg.ofByte r.toByte = r := by
  cases r <;> rfl

end Sys2Proof

namespace Sys2Proof.Machine

/-- What a register read gives after a register write, for every pair of registers (10_state.md R22, R23). -/
theorem RegStorage.read_write (rs : RegStorage) (r r' : Reg) (v : Word) :
    (rs.write r v).read r' = if r' = r then v else rs.read r' := by
  by_cases h : r' = r
  · subst h
    simp [RegStorage.read, RegStorage.write]
  · have hne : r'.index ≠ r.index := fun e => h (Reg.index_injective e)
    simp only [RegStorage.read, RegStorage.write, Vector.getElem_set, h, if_false]
    congr 1
    · rw [if_neg (by omega), if_neg (by omega)]
    · rw [if_neg (by omega), if_neg (by omega)]

/-- A register write sets the two bytes of its slot and no other (10_state.md R23). -/
theorem RegStorage.getElem_write (rs : RegStorage) (r : Reg) (v : Word) (o : Nat) (h : o < 20) :
    (rs.write r v)[o] =
      if o = 2 * r.index then lowByte v else if o = 2 * r.index + 1 then highByte v else rs[o] := by
  simp only [RegStorage.write, Vector.getElem_set]
  split_ifs <;> first | rfl | omega

theorem RegStorage.read_zero (r : Reg) : RegStorage.read (Vector.replicate 20 0x00) r = 0 := by
  cases r <;> rfl

/-- What an offset read can answer (10_state.md R38). -/
theorem RegStorage.read16_of_le {rs : RegStorage} {o : Nat} (h : o ≤ 18) :
    rs.read16 o = .ok (joinBytes rs[o + 1] rs[o]) := by
  rw [RegStorage.read16, dif_pos (by omega)]

theorem RegStorage.read16_of_ge {rs : RegStorage} {o : Nat} (h : 19 ≤ o) : rs.read16 o = .error o := by
  rw [RegStorage.read16, dif_neg (by omega)]

@[simp] theorem State.writeReg_readReg (s : State) (r r' : Reg) (v : Word) :
    (s.writeReg r v).readReg r' = if r' = r then v else s.readReg r' :=
  RegStorage.read_write s.rs r r' v

/-- A register source reads the cursor for `ip` and the register otherwise (30_encoding.md R84). -/
@[simp] theorem State.source_eq (s : State) (cur : Word) (r : Reg) :
    s.source cur r = if r = .ip then cur else s.readReg r :=
  RegStorage.read_write s.rs .ip r cur

/-- The sum is 16-bit addition (41_arithmetic.md R141). -/
theorem wrappingSum_eq (u w : Word) : wrappingSum u w = u + w := by
  apply BitVec.eq_of_toNat_eq
  simp [wrappingSum]

theorem differs_eq_true {c acc : Word} : differs c acc = true ↔ c ≠ acc := by
  simp [differs]

end Sys2Proof.Machine
end

