-- ==== Sys2Proof/Laws/Decode.lean ====
section
/-! SUPPORT. Decoding: the opcode byte, what the operand decoder can answer, and that it reads memory at the fetch
cursor as it reads a list of the same bytes. -/

namespace Sys2Proof

/-- Under an injective map the opcode byte decides the opcode (30_encoding.md R90). -/
theorem decodeOpcode_byte {m : OpcodeMap} (h : m.Injective) (op : Opcode) : decodeOpcode m (m.byte op) = some op := by
  simp only [OpcodeMap.Injective, OpcodeMap.toList, List.nodup_cons, List.mem_cons, List.not_mem_nil, or_false,
    not_or] at h
  cases op <;> simp [decodeOpcode, OpcodeMap.byte, h, Ne.symm]

/-- Whatever the map, a byte decoded as an opcode is that opcode's byte. -/
theorem byte_of_decodeOpcode {m : OpcodeMap} {b : Byte} {op : Opcode} (h : decodeOpcode m b = some op) :
    b = m.byte op := by
  unfold decodeOpcode at h
  split_ifs at h <;> simp_all [OpcodeMap.byte] <;> subst h <;> rfl

/-- A byte that is none of the six is no opcode (30_encoding.md R91). -/
theorem decodeOpcode_eq_none {m : OpcodeMap} {b : Byte} : decodeOpcode m b = none ↔ b ∉ m.toList := by
  simp only [decodeOpcode, OpcodeMap.toList, List.mem_cons, List.not_mem_nil, or_false, not_or]
  split_ifs <;> simp_all

/-- The operand decoder keeps the opcode it is given. -/
theorem opcode_of_decodeOperands {σ ε : Type} {get : σ → Except ε (Byte × σ)} {p : Params} {op : Opcode} {c c' : σ}
    {i : Instr} (h : decodeOperands get p op c = .ok (i, c')) : i.opcode = op := by
  cases op <;>
    simp only [decodeOperands, bind, Except.bind, pure, Except.pure] at h <;>
    (split at h; · cases h) <;> (split at h; · cases h) <;>
    (simp only [Except.ok.injEq, Prod.mk.injEq] at h; rw [← h.1]; rfl)

theorem AddOperand.wellFormed_ofByte (mode : AddOperandDecode) (b : Byte) :
    (AddOperand.ofByte mode b).wellFormed mode = true := by
  cases mode <;> rfl

/-- What the operand decoder answers is well-formed. -/
theorem wellFormed_of_decodeOperands {σ ε : Type} {get : σ → Except ε (Byte × σ)} {p : Params} {op : Opcode} {c c' : σ}
    {i : Instr} (h : decodeOperands get p op c = .ok (i, c')) : i.wellFormed p = true := by
  have hAdd : ∀ c r, fetchAddOperand get p.addDecode c = .ok r → r.1.wellFormed p.addDecode = true := by
    intro c r hf
    simp only [fetchAddOperand, bind, Except.bind, pure, Except.pure] at hf
    split at hf
    · cases hf
    · cases hf
      exact AddOperand.wellFormed_ofByte _ _
  cases op <;> simp only [decodeOperands, bind, Except.bind, pure, Except.pure] at h <;>
    (split at h; · cases h) <;> rename_i x hx <;> (split at h; · cases h) <;> rename_i y hy <;>
    simp only [Except.ok.injEq, Prod.mk.injEq] at h <;> obtain ⟨rfl, rfl⟩ := h
  all_goals first
    | rfl
    | simp only [Instr.wellFormed, hAdd _ _ hx, hAdd _ _ hy, Bool.and_self]

/-- Two byte sources that go in step under a relation give the operand decoder the same instruction. -/
theorem decodeOperands_simulates {σ τ ε δ : Type} {get : σ → Except ε (Byte × σ)} {get' : τ → Except δ (Byte × τ)}
    {R : σ → τ → Prop}
    (hR : ∀ c d b c', R c d → get c = .ok (b, c') → ∃ d', get' d = .ok (b, d') ∧ R c' d')
    {p : Params} {op : Opcode} {c c' : σ} {d : τ} {i : Instr} (h0 : R c d)
    (h : decodeOperands get p op c = .ok (i, c')) :
    ∃ d', decodeOperands get' p op d = .ok (i, d') ∧ R c' d' := by
  have hReg : ∀ c d r c', R c d → fetchReg get c = .ok (r, c') → ∃ d', fetchReg get' d = .ok (r, d') ∧ R c' d' := by
    intro c d r c' hcd hf
    simp only [fetchReg, bind, Except.bind, pure, Except.pure] at hf
    split at hf
    · cases hf
    · rename_i x hx
      obtain ⟨d', hd, hr⟩ := hR c d x.1 x.2 hcd hx
      simp only [Except.ok.injEq, Prod.mk.injEq] at hf
      exact ⟨d', by simp [fetchReg, bind, Except.bind, pure, Except.pure, hd, hf.1], hf.2 ▸ hr⟩
  have hWide : ∀ c d v c', R c d → fetchWide get c = .ok (v, c') → ∃ d', fetchWide get' d = .ok (v, d') ∧ R c' d' := by
    intro c d v c' hcd hf
    simp only [fetchWide, bind, Except.bind, pure, Except.pure] at hf
    split at hf
    · cases hf
    · rename_i x hx
      obtain ⟨d₁, hd₁, hr₁⟩ := hR c d x.1 x.2 hcd hx
      split at hf
      · cases hf
      · rename_i y hy
        obtain ⟨d₂, hd₂, hr₂⟩ := hR x.2 d₁ y.1 y.2 hr₁ hy
        simp only [Except.ok.injEq, Prod.mk.injEq] at hf
        exact ⟨d₂, by simp [fetchWide, bind, Except.bind, pure, Except.pure, hd₁, hd₂, hf.1], hf.2 ▸ hr₂⟩
  have hAdd : ∀ c d a c', R c d → fetchAddOperand get p.addDecode c = .ok (a, c') →
      ∃ d', fetchAddOperand get' p.addDecode d = .ok (a, d') ∧ R c' d' := by
    intro c d a c' hcd hf
    simp only [fetchAddOperand, bind, Except.bind, pure, Except.pure] at hf
    split at hf
    · cases hf
    · rename_i x hx
      obtain ⟨d', hd, hr⟩ := hR c d x.1 x.2 hcd hx
      simp only [Except.ok.injEq, Prod.mk.injEq] at hf
      exact ⟨d', by simp [fetchAddOperand, bind, Except.bind, pure, Except.pure, hd, hf.1], hf.2 ▸ hr⟩
  cases op <;> simp only [decodeOperands, bind, Except.bind, pure, Except.pure] at h <;>
    (split at h; · cases h) <;> rename_i x hx <;> (split at h; · cases h) <;> rename_i y hy <;>
    simp only [Except.ok.injEq, Prod.mk.injEq] at h <;> obtain ⟨rfl, rfl⟩ := h
  · obtain ⟨d₁, h₁, r₁⟩ := hWide _ _ _ _ h0 hx
    obtain ⟨d₂, h₂, r₂⟩ := hReg _ _ _ _ r₁ hy
    exact ⟨d₂, by simp [decodeOperands, bind, Except.bind, pure, Except.pure, h₁, h₂], r₂⟩
  · obtain ⟨d₁, h₁, r₁⟩ := hReg _ _ _ _ h0 hx
    obtain ⟨d₂, h₂, r₂⟩ := hReg _ _ _ _ r₁ hy
    exact ⟨d₂, by simp [decodeOperands, bind, Except.bind, pure, Except.pure, h₁, h₂], r₂⟩
  · obtain ⟨d₁, h₁, r₁⟩ := hReg _ _ _ _ h0 hx
    obtain ⟨d₂, h₂, r₂⟩ := hWide _ _ _ _ r₁ hy
    exact ⟨d₂, by simp [decodeOperands, bind, Except.bind, pure, Except.pure, h₁, h₂], r₂⟩
  · obtain ⟨d₁, h₁, r₁⟩ := hWide _ _ _ _ h0 hx
    obtain ⟨d₂, h₂, r₂⟩ := hReg _ _ _ _ r₁ hy
    exact ⟨d₂, by simp [decodeOperands, bind, Except.bind, pure, Except.pure, h₁, h₂], r₂⟩
  · obtain ⟨d₁, h₁, r₁⟩ := hAdd _ _ _ _ h0 hx
    obtain ⟨d₂, h₂, r₂⟩ := hAdd _ _ _ _ r₁ hy
    exact ⟨d₂, by simp [decodeOperands, bind, Except.bind, pure, Except.pure, h₁, h₂], r₂⟩
  · obtain ⟨d₁, h₁, r₁⟩ := hWide _ _ _ _ h0 hx
    obtain ⟨d₂, h₂, r₂⟩ := hWide _ _ _ _ r₁ hy
    exact ⟨d₂, by simp [decodeOperands, bind, Except.bind, pure, Except.pure, h₁, h₂], r₂⟩

end Sys2Proof

namespace Sys2Proof.Machine

/-- The cells from address `c` upward, wrapping as a fetch does, hold these bytes. -/
def Holds (m : Memory) (c : Word) (bytes : List Byte) : Prop :=
  ∀ k, (h : k < bytes.length) → m.read1 (advance c k).toNat = .ok bytes[k]

theorem Holds.tail {m : Memory} {c : Word} {b : Byte} {bytes : List Byte} (h : Holds m c (b :: bytes)) :
    Holds m (advance c 1) bytes := by
  intro k hk
  have := h (k + 1) (by simpa using hk)
  rwa [advance_advance, Nat.add_comm 1 k]

theorem Holds.head {m : Memory} {c : Word} {b : Byte} {bytes : List Byte} (h : Holds m c (b :: bytes)) :
    fetchByte m c = .ok (b, advance c 1) := by
  have := h 0 (by simp)
  simp only [advance_zero, List.getElem_cons_zero] at this
  simp [fetchByte, this]

/-- Memory that holds a list of bytes gives the operand decoder what the list gives it. -/
theorem decodeOperands_of_holds {m : Memory} {p : Params} {op : Opcode} {c : Word} {bytes rest : List Byte} {i : Instr}
    (hm : Holds m c bytes) (h : decodeOperands nextByte p op bytes = .ok (i, rest)) :
    ∃ c', decodeOperands (fetchByte m) p op c = .ok (i, c') := by
  obtain ⟨c', hc, -⟩ := decodeOperands_simulates (R := fun bs d => Holds m d bs) (get' := fetchByte m) (c := bytes) (d := c)
    (by
      intro bs d b bs' hR hb
      cases bs with
      | nil => cases hb
      | cons b' bs =>
        simp only [nextByte, Except.ok.injEq, Prod.mk.injEq] at hb
        obtain ⟨rfl, rfl⟩ := hb
        exact ⟨advance d 1, hR.head, hR.tail⟩) hm h
  exact ⟨c', hc⟩

end Sys2Proof.Machine
end

