-- ==== Sys2Proof/Laws/Ops.lean ====
section
/-! SUPPORT. The commit, field by field, and once for all what `exec` can do: every next state is a commit, and every
fault is one of three. Proofs about instructions cite these and do not unfold the meanings. -/

namespace Sys2Proof.Machine

section Commit

variable (s : State) (cur : Word) (e : Effect) (r r' : Reg) (v : Word) (m : Memory)

@[simp] theorem State.commit_loop : (s.commit cur e).loop = .idle := by cases e <;> rfl
@[simp] theorem State.commit_params : (s.commit cur e).params = s.params := by cases e <;> rfl
@[simp] theorem State.commit_nothing_mem : (s.commit cur .nothing).mem = s.mem := rfl
@[simp] theorem State.commit_register_mem : (s.commit cur (.register r v)).mem = s.mem := rfl
@[simp] theorem State.commit_memory_mem : (s.commit cur (.memory m)).mem = m := rfl

@[simp] theorem State.commit_nothing_readReg :
    (s.commit cur .nothing).readReg r' = if r' = .ip then cur else s.readReg r' :=
  State.writeReg_readReg s .ip r' cur

@[simp] theorem State.commit_memory_readReg :
    (s.commit cur (.memory m)).readReg r' = if r' = .ip then cur else s.readReg r' :=
  State.writeReg_readReg s .ip r' cur

@[simp] theorem State.commit_register_readReg :
    (s.commit cur (.register r v)).readReg r' =
      if r' = r then v else if r' = .ip then cur else s.readReg r' := by
  show ((s.writeReg .ip cur).writeReg r v).readReg r' = _
  rw [State.writeReg_readReg, State.writeReg_readReg]

@[simp] theorem State.commit_nothing_ip : (s.commit cur .nothing).ip = cur :=
  (State.commit_nothing_readReg s cur .ip).trans (if_pos rfl)

@[simp] theorem State.commit_memory_ip : (s.commit cur (.memory m)).ip = cur :=
  (State.commit_memory_readReg s cur .ip m).trans (if_pos rfl)

@[simp] theorem State.commit_register_ip :
    (s.commit cur (.register r v)).ip = if r = .ip then v else cur := by
  rw [← State.readReg_ip, State.commit_register_readReg, if_pos rfl]
  exact if_congr eq_comm rfl rfl

end Commit

/-- Leaving `Idle` makes no difference to the commit, which ends in `Idle`. -/
theorem State.leaveIdle_commit (s : State) (cur : Word) (e : Effect) :
    s.leaveIdle.commit cur e = s.commit cur e := by
  cases e <;> rfl

/-- Leaving `Idle` makes no difference to what an instruction does. -/
theorem exec_leaveIdle (i : Instr) (s : State) : exec i s.leaveIdle = exec i s := by
  cases i <;> rfl

/-- What an ADD_REG_REG source can answer (41_arithmetic.md R140). -/
theorem State.addSource_error {s : State} {cur : Word} {a : AddOperand} {o : Nat}
    (h : s.addSource cur a = .error o) : ∃ b : Byte, a = .offset b ∧ o = b.toNat ∧ 19 ≤ o := by
  cases a with
  | reg r => simp [State.addSource] at h
  | offset b =>
    refine ⟨b, rfl, ?_⟩
    simp only [State.addSource, RegStorage.read16] at h
    split_ifs at h with hb
    simp only [Except.error.injEq] at h
    omega

/-- Every next state of an instruction is the commit of one of six effects at the following address. -/
theorem exec_next_cases {i : Instr} {s t : State} (h : exec i s = .next t) :
    (∃ lit d, i = .movLitReg lit d ∧ t = s.commit (advance s.ip 4) (.register d lit)) ∨
    (∃ r d, i = .movRegReg r d ∧
      t = s.commit (advance s.ip 3) (.register d (s.source (advance s.ip 3) r))) ∨
    (∃ r addr m, i = .movRegMem r addr ∧ s.mem.write2 addr.toNat (s.source (advance s.ip 4) r) = .ok m ∧
      t = s.commit (advance s.ip 4) (.memory m)) ∨
    (∃ addr d v, i = .movMemReg addr d ∧ s.mem.read2 addr.toNat = .ok v ∧
      t = s.commit (advance s.ip 4) (.register d v)) ∨
    (∃ p q u w, i = .addRegReg p q ∧ s.addSource (advance s.ip 3) p = .ok u ∧
      s.addSource (advance s.ip 3) q = .ok w ∧
      t = s.commit (advance s.ip 3) (.register .acc (wrappingSum u w))) ∨
    (∃ cmp target, i = .jmpNeq cmp target ∧
      t = s.commit (advance s.ip 5) (if cmp = s.readReg .acc then .nothing else .register .ip target)) := by
  cases i with
  | movLitReg lit d =>
    simp only [exec, execMovLitReg, Host.Outcome.next.injEq] at h
    exact .inl ⟨lit, d, rfl, h.symm⟩
  | movRegReg r d =>
    simp only [exec, execMovRegReg, Host.Outcome.next.injEq] at h
    exact .inr (.inl ⟨r, d, rfl, h.symm⟩)
  | movRegMem r addr =>
    simp only [exec, execMovRegMem] at h
    split at h
    · cases h
    · rename_i m hm
      simp only [Host.Outcome.next.injEq] at h
      exact .inr (.inr (.inl ⟨r, addr, m, rfl, hm, h.symm⟩))
  | movMemReg addr d =>
    simp only [exec, execMovMemReg] at h
    split at h
    · cases h
    · rename_i v hv
      simp only [Host.Outcome.next.injEq] at h
      exact .inr (.inr (.inr (.inl ⟨addr, d, v, rfl, hv, h.symm⟩)))
  | addRegReg p q =>
    simp only [exec, execAddRegReg] at h
    split at h
    · cases h
    · rename_i u hu
      split at h
      · cases h
      · rename_i w hw
        simp only [Host.Outcome.next.injEq] at h
        exact .inr (.inr (.inr (.inr (.inl ⟨p, q, u, w, rfl, hu, hw, h.symm⟩))))
  | jmpNeq cmp target =>
    refine .inr (.inr (.inr (.inr (.inr ⟨cmp, target, rfl, ?_⟩))))
    simp only [exec, execJmpNeq, differs_eq_true, State.source_eq, reduceCtorEq, if_false] at h
    split_ifs at h with hc
    · rw [if_neg hc]
      exact (Host.Outcome.next.inj h).symm
    · rw [if_pos (not_not.1 hc)]
      exact (Host.Outcome.next.inj h).symm

/-- Every fault of an instruction is one of three, with the first failing index or offset. -/
theorem exec_fault_cases {i : Instr} {s : State} {f : Fault} (h : exec i s = .fault f) :
    (∃ r addr j, i = .movRegMem r addr ∧ s.mem.write2 addr.toNat (s.source (advance s.ip 4) r) = .error j ∧
      f = .executionFailure .dataWrite j) ∨
    (∃ addr d j, i = .movMemReg addr d ∧ s.mem.read2 addr.toNat = .error j ∧ f = .executionFailure .dataRead j) ∨
    (∃ p q o, i = .addRegReg p q ∧
      (s.addSource (advance s.ip 3) p = .error o ∨ s.addSource (advance s.ip 3) q = .error o) ∧
      f = .executionFailure .regOffset o) := by
  cases i with
  | movLitReg lit d => simp [exec, execMovLitReg] at h
  | movRegReg r d => simp [exec, execMovRegReg] at h
  | movRegMem r addr =>
    simp only [exec, execMovRegMem] at h
    split at h
    · rename_i j hj
      simp only [Host.Outcome.fault.injEq] at h
      exact .inl ⟨r, addr, j, rfl, hj, h.symm⟩
    · cases h
  | movMemReg addr d =>
    simp only [exec, execMovMemReg] at h
    split at h
    · rename_i j hj
      simp only [Host.Outcome.fault.injEq] at h
      exact .inr (.inl ⟨addr, d, j, rfl, hj, h.symm⟩)
    · cases h
  | addRegReg p q =>
    simp only [exec, execAddRegReg] at h
    split at h
    · rename_i o ho
      simp only [Host.Outcome.fault.injEq] at h
      exact .inr (.inr ⟨p, q, o, rfl, .inl ho, h.symm⟩)
    · split at h
      · rename_i o ho
        simp only [Host.Outcome.fault.injEq] at h
        exact .inr (.inr ⟨p, q, o, rfl, .inr ho, h.symm⟩)
      · cases h
  | jmpNeq cmp target =>
    simp only [exec, execJmpNeq] at h
    split at h <;> cases h

end Sys2Proof.Machine
end

