-- ==== Sys2Proof/Laws/PerInstr.lean ====
section
/-! SUPPORT. Statements about every instruction as syntax, one lemma per constructor. -/

namespace Sys2Proof.Laws

/-- An encoding is as long as 30_encoding.md R87 says, and at most as long as the longest instruction. -/
def EncodedLength.Statement (i : Instr) : Prop :=
  ∀ p : Params, (encode p i).length = i.length ∧ i.length ≤ maxLength

theorem EncodedLength.movLitReg (lit : Word) (d : Reg) : EncodedLength.Statement (.movLitReg lit d) :=
  fun _ => ⟨rfl, Nat.le_of_ble_eq_true rfl⟩

theorem EncodedLength.movRegReg (r : Reg) (d : Reg) : EncodedLength.Statement (.movRegReg r d) :=
  fun _ => ⟨rfl, Nat.le_of_ble_eq_true rfl⟩

theorem EncodedLength.movRegMem (r : Reg) (addr : Word) : EncodedLength.Statement (.movRegMem r addr) :=
  fun _ => ⟨rfl, Nat.le_of_ble_eq_true rfl⟩

theorem EncodedLength.movMemReg (addr : Word) (d : Reg) : EncodedLength.Statement (.movMemReg addr d) :=
  fun _ => ⟨rfl, Nat.le_of_ble_eq_true rfl⟩

theorem EncodedLength.addRegReg (p : AddOperand) (q : AddOperand) : EncodedLength.Statement (.addRegReg p q) :=
  fun _ => ⟨rfl, Nat.le_of_ble_eq_true rfl⟩

theorem EncodedLength.jmpNeq (cmp : Word) (target : Word) : EncodedLength.Statement (.jmpNeq cmp target) :=
  fun _ => ⟨rfl, Nat.le_of_ble_eq_true rfl⟩

end Sys2Proof.Laws
end

