-- ==== Sys2Proof/Laws/Step.lean ====
section
/-! SUPPORT. The step: what fetching an instruction can answer, and once for all what a step can do. -/

namespace Sys2Proof.Machine

/-- With every operand byte in memory the operand fetches succeed and leave the cursor after the instruction
(30_encoding.md R87). -/
theorem decodeOperands_in_range {m : Memory} {p : Params} {op : Opcode} {c : Word}
    (h : ∀ k, k + 1 < op.length → (advance c k).toNat < m.size) :
    ∃ i, decodeOperands (fetchByte m) p op c = .ok (i, advance c (op.length - 1)) := by
  cases op <;>
  · have h0 := h 0 (by decide)
    have h1 := h 1 (by decide)
    try have h2 := h 2 (by decide)
    try have h3 := h 3 (by decide)
    simp only [advance_zero] at h0
    simp only [decodeOperands, fetchWide, fetchReg, fetchAddOperand, fetchByte_eq, bind, Except.bind, pure,
      Except.pure, advance_advance, *, if_true, Opcode.length]
    exact ⟨_, rfl⟩

/-- The operand fetches fail at the first operand byte outside memory (60_exceptions.md R167). -/
theorem decodeOperands_missing {m : Memory} {p : Params} {op : Opcode} {c : Word} {n : Nat} (hn : n + 1 < op.length)
    (h : ∀ k < n, (advance c k).toNat < m.size) (hm : m.size ≤ (advance c n).toNat) :
    decodeOperands (fetchByte m) p op c = .error (advance c n).toNat := by
  have hm' : ¬(advance c n).toNat < m.size := by omega
  have hlen : op.length ≤ 5 := by cases op <;> decide
  have hlt : n < 4 := by omega
  interval_cases n
  · simp only [advance_zero] at hm' ⊢
    cases op <;>
      simp only [decodeOperands, fetchWide, fetchReg, fetchAddOperand, fetchByte_eq, bind, Except.bind, hm', if_false]
  · have h0 := h 0 (by decide)
    simp only [advance_zero] at h0
    cases op <;> first
      | exact absurd hn (by decide)
      | simp only [decodeOperands, fetchWide, fetchReg, fetchAddOperand, fetchByte_eq, bind, Except.bind, pure,
          Except.pure, h0, hm', if_true, if_false]
  · have h0 := h 0 (by decide)
    have h1 := h 1 (by decide)
    simp only [advance_zero] at h0
    cases op <;> first
      | exact absurd hn (by decide)
      | simp only [decodeOperands, fetchWide, fetchReg, fetchByte_eq, bind, Except.bind, pure,
          Except.pure, advance_advance, h0, h1, hm', if_true, if_false]
  · have h0 := h 0 (by decide)
    have h1 := h 1 (by decide)
    have h2 := h 2 (by decide)
    simp only [advance_zero] at h0
    cases op <;> first
      | exact absurd hn (by decide)
      | simp only [decodeOperands, fetchWide, fetchByte_eq, bind, Except.bind, pure,
          Except.pure, advance_advance, h0, h1, h2, hm', if_true, if_false]

/-- Either every operand byte is in memory or there is a first one that is not. -/
theorem operands_in_range_or_first_missing (m : Memory) (c : Word) (len : Nat) :
    (∀ k, k + 1 < len → (advance c k).toNat < m.size) ∨
    ∃ n, n + 1 < len ∧ (∀ k < n, (advance c k).toNat < m.size) ∧ m.size ≤ (advance c n).toNat := by
  induction len with
  | zero => exact .inl fun k hk => by omega
  | succ len ih =>
    rcases ih with hall | ⟨n, hn, hbefore, hmiss⟩
    · by_cases hlast : (advance c (len - 1)).toNat < m.size
      · refine .inl fun k hk => ?_
        by_cases hkl : k + 1 < len
        · exact hall k hkl
        · rwa [show k = len - 1 by omega]
      · by_cases hlen : len = 0
        · exact .inl fun k hk => by omega
        · exact .inr ⟨len - 1, by omega, fun k hk => hall k (by omega), by omega⟩
    · exact .inr ⟨n, by omega, hbefore, hmiss⟩

/-- What fetching an instruction can fail with (60_exceptions.md R161, R163, R162). -/
theorem fetchInstr_error_cases {s : State} {f : Fault} (h : fetchInstr s = .error f) :
    (s.mem.size ≤ s.ip.toNat ∧ f = .fetchFailure s.ip.toNat) ∨
    (∃ b, s.mem.read1 s.ip.toNat = .ok b ∧ decodeOpcode s.params.opcodes b = none ∧ f = .invalidInstruction b s.ip) ∨
    (∃ b op n, s.mem.read1 s.ip.toNat = .ok b ∧ decodeOpcode s.params.opcodes b = some op ∧ 1 ≤ n ∧ n < op.length ∧
      (∀ k < n, 1 ≤ k → (advance s.ip k).toNat < s.mem.size) ∧ s.mem.size ≤ (advance s.ip n).toNat ∧
      f = .executionFailure .operandFetch (advance s.ip n).toNat) := by
  cases hr : s.mem.read1 s.ip.toNat with
  | error j =>
    obtain ⟨hs, rfl⟩ := Memory.read1_eq_error.1 hr
    simp only [fetchInstr, fetchByte, hr, Except.error.injEq] at h
    exact .inl ⟨hs, h.symm⟩
  | ok b =>
    cases ho : decodeOpcode s.params.opcodes b with
    | none =>
      simp only [fetchInstr, fetchByte, hr, ho, Except.error.injEq] at h
      exact .inr (.inl ⟨b, rfl, ho, h.symm⟩)
    | some op =>
      refine .inr (.inr ⟨b, op, ?_⟩)
      simp only [fetchInstr, fetchByte, hr, ho] at h
      rcases operands_in_range_or_first_missing s.mem (advance s.ip 1) op.length with hall | ⟨n, hn, hbefore, hmiss⟩
      · obtain ⟨i, hi⟩ := decodeOperands_in_range (p := s.params) hall
        rw [hi] at h
        cases h
      · rw [decodeOperands_missing hn hbefore hmiss] at h
        simp only [advance_advance, Except.error.injEq, Nat.add_comm 1] at h hmiss hbefore
        refine ⟨n + 1, rfl, ho, by omega, hn, fun k hk1 hk2 => ?_, hmiss, h.symm⟩
        have := hbefore (k - 1) (by omega)
        rwa [Nat.sub_add_cancel hk2] at this

/-- What fetching an instruction succeeds with: the opcode byte is the instruction's, the cursor stands after it,
and it is well-formed (30_encoding.md R90, R103). -/
theorem fetchInstr_ok_cases {s : State} {i : Instr} {cur : Word} (h : fetchInstr s = .ok (i, cur)) :
    s.mem.read1 s.ip.toNat = .ok (s.params.opcodes.byte i.opcode) ∧
      decodeOpcode s.params.opcodes (s.params.opcodes.byte i.opcode) = some i.opcode ∧
      cur = advance s.ip i.length ∧ i.wellFormed s.params = true := by
  cases hr : s.mem.read1 s.ip.toNat with
  | error j => simp [fetchInstr, fetchByte, hr] at h
  | ok b =>
    cases ho : decodeOpcode s.params.opcodes b with
    | none => simp [fetchInstr, fetchByte, hr, ho] at h
    | some op =>
      simp only [fetchInstr, fetchByte, hr, ho] at h
      split at h
      · cases h
      · rename_i hd
        simp only [Except.ok.injEq] at h
        subst h
        have hop : i.opcode = op := opcode_of_decodeOperands hd
        subst hop
        have hb := byte_of_decodeOpcode ho
        refine ⟨by rw [hb], hb ▸ ho, ?_, wellFormed_of_decodeOperands hd⟩
        rcases operands_in_range_or_first_missing s.mem (advance s.ip 1) i.opcode.length with
          hall | ⟨n, hn, hbefore, hmiss⟩
        · obtain ⟨i', hi'⟩ := decodeOperands_in_range (p := s.params) hall
          rw [hi'] at hd
          simp only [Except.ok.injEq, Prod.mk.injEq] at hd
          have : 1 + (i.opcode.length - 1) = i.length := by cases i <;> rfl
          rw [← hd.2, advance_advance, this]
        · rw [decodeOperands_missing hn hbefore hmiss] at hd
          cases hd

/-- Memory that holds an opcode byte and, after it, operand bytes that decode to `i`, fetches `i`. -/
theorem fetchInstr_of_holds {s : State} {b : Byte} {op : Opcode} {bytes rest : List Byte} {i : Instr}
    (hb : s.mem.read1 s.ip.toNat = .ok b) (ho : decodeOpcode s.params.opcodes b = some op)
    (hm : Holds s.mem (advance s.ip 1) bytes) (hd : decodeOperands nextByte s.params op bytes = .ok (i, rest)) :
    ∃ cur, fetchInstr s = .ok (i, cur) := by
  obtain ⟨cur, hc⟩ := decodeOperands_of_holds hm hd
  exact ⟨cur, by simp [fetchInstr, fetchByte, hb, ho, hc]⟩

/-- A step whose instruction is fetched executes it. -/
theorem step_of_fetchInstr {s : State} {i : Instr} {cur : Word} (hl : s.loop = .idle)
    (h : fetchInstr s = .ok (i, cur)) : step s = exec i s := by
  have h' : fetchInstr s.leaveIdle = .ok (i, cur) := h
  simp [step, hl, h', exec_leaveIdle]

/-- A step whose instruction is not fetched fails with the failure of the fetch. -/
theorem step_of_fetchInstr_error {s : State} {f : Fault} (hl : s.loop = .idle) (h : fetchInstr s = .error f) :
    step s = .fault f := by
  have h' : fetchInstr s.leaveIdle = .error f := h
  simp [step, hl, h']

/-- Every next state of a step is a next state of the instruction it fetched. -/
theorem step_next_cases {s t : State} (h : step s = .next t) :
    s.loop = .idle ∧ ∃ i cur, fetchInstr s = .ok (i, cur) ∧ exec i s = .next t := by
  cases hl : s.loop with
  | inFlight => simp [step, hl] at h
  | idle =>
    cases hf : fetchInstr s with
    | error f => rw [step_of_fetchInstr_error hl hf] at h; cases h
    | ok r => exact ⟨rfl, r.1, r.2, rfl, (step_of_fetchInstr hl hf) ▸ h⟩

/-- Every fault of a step is a failure of the fetch or of the instruction it fetched. -/
theorem step_fault_cases {s : State} {f : Fault} (h : step s = .fault f) :
    s.loop = .idle ∧ (fetchInstr s = .error f ∨ ∃ i cur, fetchInstr s = .ok (i, cur) ∧ exec i s = .fault f) := by
  cases hl : s.loop with
  | inFlight => simp [step, hl] at h
  | idle =>
    cases hf : fetchInstr s with
    | error g => rw [step_of_fetchInstr_error hl hf] at h; exact ⟨rfl, .inl (by cases h; rfl)⟩
    | ok r => exact ⟨rfl, .inr ⟨r.1, r.2, rfl, (step_of_fetchInstr hl hf) ▸ h⟩⟩

/-- `withFetchWord` keeps the memory's canonical form and its length. -/
theorem withFetchWord_mem {s : State} (h : s.mem.Wf) (nbits w : Nat) :
    (s.withFetchWord nbits w).mem.Wf ∧ (s.withFetchWord nbits w).mem.size = s.mem.size :=
  placeBytes_spec s.mem s.ip _ h

end Sys2Proof.Machine
end

