-- ==== Sys2Proof/Laws/Ports.lean ====
section
/-! SUPPORT. What each port can do, once for all. -/

namespace Sys2Proof.Machine

/-- What LOAD can do (20_memory.md R60). -/
theorem load_cases (i : Nat) (b : Byte) (s : State) :
    (∃ m, s.loop = .idle ∧ s.mem.write1 i b = .ok m ∧ load i b s = ⟨.ok (), s.setMem m⟩) ∨
    (s.loop = .idle ∧ s.mem.size ≤ i ∧ load i b s = ⟨.failed (.outOfBounds i), s⟩) ∨
    (s.loop = .inFlight ∧ load i b s = ⟨.notAccepted, s⟩) := by
  cases hl : s.loop with
  | inFlight => exact .inr (.inr ⟨rfl, by simp [load, grants, hl]⟩)
  | idle =>
    cases hw : s.mem.write1 i b with
    | ok m => exact .inl ⟨m, rfl, rfl, by simp [load, grants, hl, hw]⟩
    | error j =>
      obtain ⟨hs, rfl⟩ := Memory.write1_eq_error.1 hw
      exact .inr (.inl ⟨rfl, hs, by simp [load, grants, hl, hw]⟩)

/-- What REG_WRITE can do to the state (10_state.md R33). -/
theorem regWrite_state_cases (select : BitVec 4) (v : Word) (s : State) :
    (∃ r, s.loop = .idle ∧ r.index = select.toNat ∧ regWrite select v s = ⟨.ok (), s.writeReg r v⟩) ∨
    (regWrite select v s).state = s := by
  cases hl : s.loop with
  | inFlight => exact .inr (by simp [regWrite, hl])
  | idle =>
    cases hr : Reg.ofIndex? select.toNat with
    | none => exact .inr (by simp [regWrite, hl, hr])
    | some r => exact .inl ⟨r, rfl, Reg.ofIndex?_eq_some.1 hr, by simp [regWrite, hl, hr]⟩

/-- REG_READ changes nothing (10_state.md R32). -/
@[simp] theorem regRead_state (select : BitVec 4) (s : State) : (regRead select s).state = s := by
  unfold regRead
  split
  · rfl
  · split <;> rfl

/-- DUMP changes nothing (10_state.md R35). -/
@[simp] theorem dump_state (s : State) : (dump s).state = s := by
  unfold dump
  split <;> rfl

/-- What STEP can do to the state (60_exceptions.md R165). -/
theorem stepPort_cases (s : State) :
    (∃ t, step s = .next t ∧ stepPort s = ⟨.ok (), t⟩) ∨
    (∃ f, step s = .fault f ∧ stepPort s = ⟨.failed f, s⟩) ∨
    (∃ r, step s = .refused r ∧ stepPort s = ⟨.notAccepted, s⟩) := by
  cases h : step s with
  | next t => exact .inl ⟨t, rfl, by simp [stepPort, h]⟩
  | fault f => exact .inr (.inl ⟨f, rfl, by simp [stepPort, h]⟩)
  | refused r => exact .inr (.inr ⟨r, rfl, by simp [stepPort, h]⟩)

/-- While the loop is `Idle` the arbiter grants LOAD alone, and inside a step the two others (20_memory.md R63). -/
theorem grants_loadPort (l : LoopState) :
    grants l .loadPort = !grants l .fetchUnit ∧ grants l .fetchUnit = grants l .dataPort := by
  cases l <;> exact ⟨rfl, rfl⟩

end Sys2Proof.Machine
end

