-- ==== Sys2Proof/Laws/Safety.lean ====
section
/-! SUPPORT. The readings that statements use, against the model's own operations. -/

namespace Sys2Proof.Machine

/-- Two bytes read as 10_state.md R22 writes it are the two bytes joined. -/
theorem wordOf_eq (hi lo : Byte) : wordOf hi lo = joinBytes hi lo := by
  apply BitVec.eq_of_toNat_eq
  have h1 := hi.isLt
  have h2 := lo.isLt
  rw [joinBytes_toNat, wordOf, BitVec.toNat_ofNat]
  omega

/-- The register storage inside a step, byte by byte (10_state.md R38). -/
theorem State.getElem_storageAt (s : State) (cur : Word) (o : Nat) (h : o < 20) :
    (s.storageAt cur)[o] = s.storageByte cur o := by
  rw [State.storageAt, RegStorage.getElem_write]
  simp only [State.storageByte, Reg.index, Nat.mul_zero, Nat.zero_add, lowByte, highByte, h,
    Vector.getElem?_eq_getElem, Option.getD_some]

/-- A raw offset up to 18 reads two bytes of the register storage inside the step (41_arithmetic.md R140). -/
theorem State.addSource_offset (s : State) (cur : Word) {o : Byte} (h : o.toNat ≤ 18) :
    s.addSource cur (.offset o) = .ok (wordOf (s.storageByte cur (o.toNat + 1)) (s.storageByte cur o.toNat)) := by
  simp only [State.addSource, RegStorage.read16_of_le h, State.getElem_storageAt, wordOf_eq]

end Sys2Proof.Machine
end

