-- ==== Sys2Proof/Tests/Slice0.lean ====
section
/-! SUPPORT. Tests. Expected values come from spec/95_test_vectors.md (the vector's id is in the comment) or from hand
calculation with the rule named. The witnesses at the end show, for each statement with hypotheses, a state and operands
that meet all of them, clause by clause at the ends of each clause's range. -/

namespace Sys2Proof.Machine.Tests

/-! ### Helpers -/

/-- The state a transition answers. -/
def nextState : Host.Outcome State Fault Refusal → Option State
  | .next t => some t
  | .fault _ => none
  | .refused _ => none

/-- The failure a transition answers. -/
def failure : Host.Outcome State Fault Refusal → Option Fault
  | .next _ => none
  | .fault f => some f
  | .refused _ => none

/-- A constructed machine of `size` cells with `bytes` loaded at `a` and `ip` there. -/
def machine (p : Params) (size : Nat) (a : Word) (bytes : List Byte) : State :=
  (State.construct p (placeBytes (Memory.new size) a bytes)).writeReg .ip a

/-- The convention of spec/95_test_vectors.md: default parameters, 256 cells. -/
def at256 (a : Word) (bytes : List Byte) : State := machine defaultParams 256 a bytes

/-- The default opcode bytes with raw-offset ADD operands. -/
def rawParams : Params := { defaultParams with addDecode := .rawOffset }

/-- The value of a register after a step. -/
def regAfter (s : State) (r : Reg) : Option Word := (nextState (step s)).map fun t => t.readReg r

/-- A byte of memory after a step. -/
def byteAfter (s : State) (x : Nat) : Option (Except Nat Byte) := (nextState (step s)).map fun t => t.mem.read1 x

/-! ### WellFormed -/

theorem test_add_register_ill_formed_under_raw_offset :
    (Instr.addRegReg (.reg .r1) (.offset 4)).wellFormed rawParams = false := by decide

theorem test_add_second_register_ill_formed_under_raw_offset :
    (Instr.addRegReg (.offset 4) (.reg .r1)).wellFormed rawParams = false := by decide

theorem test_add_offset_ill_formed_under_reduced :
    (Instr.addRegReg (.offset 4) (.reg .r1)).wellFormed defaultParams = false := by decide

theorem test_add_second_offset_ill_formed_under_reduced :
    (Instr.addRegReg (.reg .r1) (.offset 4)).wellFormed defaultParams = false := by decide

theorem test_opcode_map_with_a_repeated_byte_not_injective :
    ¬({ defaultOpcodes with jmpNeq := 0x10 } : OpcodeMap).Injective := by decide

theorem test_memory_listing_a_zero_or_out_of_order_not_wf :
    ¬(⟨4, [(1, 0x00)]⟩ : Memory).Wf ∧ ¬(⟨4, [(2, 0x01), (1, 0x01)]⟩ : Memory).Wf ∧ ¬(⟨4, [(4, 0x01)]⟩ : Memory).Wf := by
  decide

/-! ### Decode: words written out from 30_encoding.md R87 and R96 -/

-- 00010000 LLLLLLLL HHHHHHHH DDDDDDDD
theorem test_decode_movLitReg :
    decode defaultParams [0b00010000, 0b00110100, 0b00010010, 0b00000010] = .ok (.movLitReg 0x1234 .r1, []) := by decide

-- 00010001 SSSSSSSS DDDDDDDD, with bytes that reduce: 12 and 13 name r1 and r2 (M12)
theorem test_decode_movRegReg :
    decode defaultParams [0b00010001, 0b00001100, 0b00001101] = .ok (.movRegReg .r1 .r2, []) := by decide

-- 00010010 SSSSSSSS LLLLLLLL HHHHHHHH
theorem test_decode_movRegMem :
    decode defaultParams [0b00010010, 0b00000100, 0b01000000, 0b00000001] = .ok (.movRegMem .r3 0x0140, []) := by decide

-- 00010011 LLLLLLLL HHHHHHHH DDDDDDDD
theorem test_decode_movMemReg :
    decode defaultParams [0b00010011, 0b01000000, 0b00000001, 0b00001001] = .ok (.movMemReg 0x0140 .r8, []) := by decide

-- 00010100 PPPPPPPP QQQQQQQQ, in both modes (A6, A9)
theorem test_decode_addRegReg :
    decode defaultParams [0b00010100, 0b00000100, 0b00000110] = .ok (.addRegReg (.reg .r3) (.reg .r5), []) ∧
    decode rawParams [0b00010100, 0b00000101, 0b00000010] = .ok (.addRegReg (.offset 5) (.offset 2), []) := by decide

-- 00010101 CCCCCCCC cccccccc TTTTTTTT tttttttt
theorem test_decode_jmpNeq :
    decode defaultParams [0b00010101, 0b11111110, 0b11111111, 0b00001000, 0b00000010] =
      .ok (.jmpNeq 0xFFFE 0x0208, []) := by decide

-- F3: register bytes 00 09 0A 0C FF
theorem test_register_bytes_reduce :
    [0x00, 0x09, 0x0A, 0x0C, 0xFF].map Reg.ofByte = [.ip, .r8, .ip, .r1, .r4] := by decide

-- D1, D2: illegal opcodes; and a list that ends too soon
theorem test_decode_refuses :
    [[0x00], [0x16], [0xFF], [0x0F]].map (decode defaultParams) =
      [.error (.invalidOpcode 0x00), .error (.invalidOpcode 0x16), .error (.invalidOpcode 0xFF),
        .error (.invalidOpcode 0x0F)] ∧
    decode defaultParams [] = .error .noOpcodeByte ∧ decode defaultParams [0x10, 0x34, 0x12] = .error .truncated := by
  decide

-- bit 0 of the table's number is the least significant bit of the first byte
theorem test_decodeTableWord :
    decodeTableWord 32 0x02123410 = some (.movLitReg 0x1234 .r1) ∧ decodeTableWord 24 0x030211 = some (.movRegReg .r1 .r2) ∧
    decodeTableWord 40 0x0008000015 = some (.jmpNeq 0 8) ∧ decodeTableWord 8 0x16 = none := by decide

/-! ### Instructions -/

-- S3
theorem test_movLitReg :
    regAfter (at256 0 [0x10, 0x34, 0x12, 0x02]) .r1 = some 0x1234 ∧
    regAfter (at256 0 [0x10, 0x34, 0x12, 0x02]) .ip = some 4 := by decide

-- M2: a jump; F4: the operand bytes wrap to address 0
theorem test_movLitReg_to_ip_and_wrap :
    regAfter (at256 0x20 [0x10, 0x00, 0x01, 0x00]) .ip = some 0x0100 ∧
    regAfter (machine defaultParams 0x10000 0xFFFD [0x10, 0x78, 0x56, 0x03]) .r2 = some 0x5678 ∧
    regAfter (machine defaultParams 0x10000 0xFFFD [0x10, 0x78, 0x56, 0x03]) .ip = some 1 := by decide

-- M8: an ip source reads the following address
theorem test_movRegReg_from_ip :
    regAfter (at256 0x20 [0x11, 0x00, 0x03]) .r2 = some 0x0023 ∧
    regAfter (at256 0x20 [0x11, 0x00, 0x03]) .ip = some 0x23 := by decide

-- M9: a register-indirect jump
theorem test_movRegReg_to_ip :
    regAfter ((at256 0 [0x11, 0x04, 0x00]).writeReg .r3 0x0040) .ip = some 0x0040 := by decide

-- M14, M18: low byte at the lower address; an ip source
theorem test_movRegMem :
    byteAfter ((at256 4 [0x12, 0x04, 0x40, 0x00]).writeReg .r3 0xBEEF) 0x40 = some (.ok 0xEF) ∧
    byteAfter ((at256 4 [0x12, 0x04, 0x40, 0x00]).writeReg .r3 0xBEEF) 0x41 = some (.ok 0xBE) ∧
    byteAfter (at256 8 [0x12, 0x00, 0x50, 0x00]) 0x50 = some (.ok 0x0C) := by decide

-- M16, M19, M20: the second cell does not wrap
theorem test_movRegMem_last_cell :
    failure (step (at256 0 [0x12, 0x02, 0xFF, 0x00])) = some (.executionFailure .dataWrite 0x100) ∧
    failure (step (machine defaultParams 0x10000 0 [0x12, 0x02, 0xFF, 0xFF])) =
      some (.executionFailure .dataWrite 0x10000) ∧
    byteAfter ((machine defaultParams 0x10001 0 [0x12, 0x02, 0xFF, 0xFF]).writeReg .r1 0x1234) 0x10000 =
      some (.ok 0x12) := by decide

-- M26: it may read its own bytes
theorem test_movMemReg_own_bytes : regAfter (at256 0 [0x13, 0x00, 0x00, 0x02]) .r1 = some 0x0013 := by decide

-- M24
theorem test_movMemReg_last_cell :
    failure (step (at256 0 [0x13, 0xFF, 0x00, 0x02])) = some (.executionFailure .dataRead 0x100) := by decide

-- A2, A5
theorem test_addRegReg_reduced :
    regAfter (((at256 0 [0x14, 0x02, 0x03]).writeReg .r1 0xFFFF).writeReg .r2 2) .acc = some 1 ∧
    regAfter (at256 0x10 [0x14, 0x00, 0x00]) .acc = some 0x0026 := by decide

-- A9, A10, A11
theorem test_addRegReg_raw_offset :
    regAfter (((machine rawParams 256 0 [0x14, 0x05, 0x02]).writeReg .r1 0x1234).writeReg .r2 0xABCD) .acc = some 0xCD12 ∧
    failure (step (machine rawParams 256 0 [0x14, 0x13, 0x02])) = some (.executionFailure .regOffset 19) ∧
    regAfter (machine rawParams 256 0x10 [0x14, 0x00, 0x00]) .acc = some 0x0026 := by decide

-- J1, J2
theorem test_jmpNeq :
    regAfter ((at256 0x0E [0x15, 0x00, 0x00, 0x08, 0x00]).writeReg .acc 4) .ip = some 0x0008 ∧
    regAfter (at256 0x0E [0x15, 0x00, 0x00, 0x08, 0x00]) .ip = some 0x0013 := by decide

-- J5, M5: the first missing operand byte
theorem test_operand_fetch_failure :
    failure (step (machine defaultParams 4 0 [0x15, 0x00, 0x00, 0x08])) = some (.executionFailure .operandFetch 4) ∧
    failure (step (machine defaultParams 2 0 [0x10, 0x34])) = some (.executionFailure .operandFetch 2) := by decide

-- S7, D1, D3
theorem test_fetch_and_decode_failures :
    failure (step (at256 0x100 [])) = some (.fetchFailure 0x100) ∧
    failure (step (at256 0 [])) = some (.invalidInstruction 0x00 0) ∧
    failure (step (machine defaultParams 0 0 [])) = some (.fetchFailure 0) := by decide

-- D4: another opcode map
theorem test_other_opcode_map :
    regAfter (machine { defaultParams with opcodes := { defaultOpcodes with movLitReg := 0x42 } } 256 0
      [0x42, 0x05, 0x00, 0x04]) .r3 = some 5 ∧
    failure (step (machine { defaultParams with opcodes := { defaultOpcodes with movLitReg := 0x42 } } 256 0 [0x10])) =
      some (.invalidInstruction 0x10 0) := by decide

/-! ### Ports -/

-- S2, H2
theorem test_ports_refuse :
    regRead 10 (at256 0 []) = ⟨.failed (.invalidRegister 10), at256 0 []⟩ ∧
    regWrite 15 0x1111 (at256 0 []) = ⟨.failed (.invalidRegister 15), at256 0 []⟩ ∧
    load 0x100 0x01 (at256 0 []) = ⟨.failed (.outOfBounds 0x100), at256 0 []⟩ := by decide

-- S1: the two bytes of r8; H1
theorem test_ports_write :
    (regWrite 9 0xA55A (at256 0 [])).state.rs[18] = 0x5A ∧ (regWrite 9 0xA55A (at256 0 [])).state.rs[19] = 0xA5 ∧
    (load 0x10 0xAB (at256 0 [])).state.mem.read1 0x10 = .ok 0xAB := by decide

/-! ### The host's interface: an instruction of the table runs as the first one after reset -/

theorem test_withFetchWord_runs :
    step (State.reset.withFetchWord 32 0x02123410) =
      exec (.movLitReg 0x1234 .r1) (State.reset.withFetchWord 32 0x02123410) := rfl

/-! ### Witnesses: every hypothesis of a statement can be met -/

theorem witness_ZeroMemoryFirstStepFails : (0x00 : Byte) ∉ defaultParams.opcodes.toList := by decide

-- size 66: the last pair of cells is 64, 65; at 65 the second is missing; at 66 both
theorem witness_MovRegMemCompletes :
    (0x0040 : Word).toNat + 1 < (machine defaultParams 66 0 []).mem.size ∧
    (machine defaultParams 66 0 []).mem.size = (0x0041 : Word).toNat + 1 ∧
    (machine defaultParams 66 0 []).mem.size ≤ (0x0042 : Word).toNat := by decide

theorem witness_MovMemRegCompletes :
    (machine defaultParams 66 0x40 [0xEF, 0xBE]).mem.read1 (0x0040 : Word).toNat = .ok 0xEF ∧
    (machine defaultParams 66 0x40 [0xEF, 0xBE]).mem.read1 ((0x0040 : Word).toNat + 1) = .ok 0xBE ∧
    (machine defaultParams 66 0x40 []).mem.size = (0x0041 : Word).toNat + 1 ∧
    (machine defaultParams 66 0x40 []).mem.size ≤ (0x0042 : Word).toNat := by decide

theorem witness_AddRegRegOfOffsetsCompletes : (18 : Byte).toNat ≤ 18 ∧ 19 ≤ (19 : Byte).toNat := by decide

theorem witness_StepRunsDecodedInstruction :
    (at256 0x20 [0x11, 0x02, 0x03]).loop = .idle ∧
    (∀ k, (h : k < [0x11, 0x02, 0x03].length) →
      (at256 0x20 [0x11, 0x02, 0x03]).mem.read1 ((at256 0x20 [0x11, 0x02, 0x03]).ip + BitVec.ofNat 16 k).toNat =
        .ok ([0x11, 0x02, 0x03] : List Byte)[k]) ∧
    decode (at256 0x20 [0x11, 0x02, 0x03]).params [0x11, 0x02, 0x03] = .ok (.movRegReg .r1 .r2, []) := by decide

theorem witness_StepRunsEncodedInstruction :
    (at256 0x20 (encode defaultParams (.movRegReg .r1 .r2))).loop = .idle ∧
    (at256 0x20 (encode defaultParams (.movRegReg .r1 .r2))).params.opcodes.Injective ∧
    (Instr.movRegReg .r1 .r2).wellFormed (at256 0x20 (encode defaultParams (.movRegReg .r1 .r2))).params = true ∧
    (∀ k, (h : k < (encode defaultParams (.movRegReg .r1 .r2)).length) →
      (at256 0x20 (encode defaultParams (.movRegReg .r1 .r2))).mem.read1 ((0x20 : Word) + BitVec.ofNat 16 k).toNat =
        .ok (encode defaultParams (.movRegReg .r1 .r2))[k]) := by decide

theorem witness_OpcodeFetchOutOfRangeFails :
    (at256 0x100 []).loop = .idle ∧ (at256 0x100 []).mem.size ≤ (at256 0x100 []).ip.toNat := by decide

theorem witness_OpcodeByteDecidesInstruction :
    (at256 0 [0x11, 2, 3]).loop = .idle ∧ (at256 0 [0x11, 2, 3]).params.opcodes.Injective ∧
    (at256 0 [0x11, 2, 3]).mem.read1 (at256 0 [0x11, 2, 3]).ip.toNat = .ok 0x11 ∧
    fetchInstr (at256 0 [0x11, 2, 3]) = .ok (.movRegReg .r1 .r2, 3) ∧
    (at256 0 []).mem.read1 (at256 0 []).ip.toNat = .ok 0x00 ∧ 0x00 ∉ (at256 0 []).params.opcodes.toList := by decide

-- 100 cells and a MOV_LIT_REG whose last operand byte is the last cell, or the first cell outside
theorem witness_StepOfMovLitReg :
    (machine defaultParams 100 96 [0x10, 0x34, 0x12, 0x02]).loop = .idle ∧
    (machine defaultParams 100 96 [0x10, 0x34, 0x12, 0x02]).params.opcodes.Injective ∧
    (machine defaultParams 100 96 [0x10, 0x34, 0x12, 0x02]).mem.read1 96 = .ok 0x10 ∧
    (machine defaultParams 100 96 [0x10, 0x34, 0x12, 0x02]).mem.read1 97 = .ok 0x34 ∧
    (machine defaultParams 100 96 [0x10, 0x34, 0x12, 0x02]).mem.read1 98 = .ok 0x12 ∧
    (machine defaultParams 100 96 [0x10, 0x34, 0x12, 0x02]).mem.read1 99 = .ok 0x02 ∧
    (machine defaultParams 100 97 [0x10, 0x34, 0x12]).FirstMissingOperand 4 3 ∧
    (machine defaultParams 100 99 [0x10]).FirstMissingOperand 4 1 := by decide

theorem witness_StepOfMovRegReg :
    (machine defaultParams 100 97 [0x11, 0x0C, 0xFF]).loop = .idle ∧
    (machine defaultParams 100 97 [0x11, 0x0C, 0xFF]).params.opcodes.Injective ∧
    (machine defaultParams 100 97 [0x11, 0x0C, 0xFF]).mem.read1 97 = .ok 0x11 ∧
    (machine defaultParams 100 97 [0x11, 0x0C, 0xFF]).mem.read1 98 = .ok 0x0C ∧
    (machine defaultParams 100 97 [0x11, 0x0C, 0xFF]).mem.read1 99 = .ok 0xFF ∧
    Reg.r1.index = (0x0C : Byte).toNat % 10 ∧
    (machine defaultParams 100 98 [0x11, 0x0C]).FirstMissingOperand 3 2 ∧
    (machine defaultParams 100 99 [0x11]).FirstMissingOperand 3 1 := by decide

theorem witness_StepOfMovRegMem :
    (at256 4 [0x12, 0x0C, 0xFE, 0x00]).loop = .idle ∧
    (at256 4 [0x12, 0x0C, 0xFE, 0x00]).params.opcodes.Injective ∧
    (at256 4 [0x12, 0x0C, 0xFE, 0x00]).mem.read1 4 = .ok 0x12 ∧
    (at256 4 [0x12, 0x0C, 0xFE, 0x00]).mem.read1 5 = .ok 0x0C ∧
    (at256 4 [0x12, 0x0C, 0xFE, 0x00]).mem.read1 6 = .ok 0xFE ∧
    (at256 4 [0x12, 0x0C, 0xFE, 0x00]).mem.read1 7 = .ok 0x00 ∧
    Reg.r1.index = (0x0C : Byte).toNat % 10 ∧ (wordOf 0x00 0xFE).toNat + 1 < 256 ∧
    256 = (wordOf 0x00 0xFF).toNat + 1 ∧ 256 ≤ (wordOf 0x01 0x00).toNat ∧
    (machine defaultParams 100 97 [0x12, 0x0C, 0xFE]).FirstMissingOperand 4 3 := by decide

theorem witness_StepOfMovMemReg :
    (at256 4 [0x13, 0xFE, 0x00, 0x0C]).loop = .idle ∧
    (at256 4 [0x13, 0xFE, 0x00, 0x0C]).params.opcodes.Injective ∧
    (at256 4 [0x13, 0xFE, 0x00, 0x0C]).mem.read1 4 = .ok 0x13 ∧
    (at256 4 [0x13, 0xFE, 0x00, 0x0C]).mem.read1 5 = .ok 0xFE ∧
    (at256 4 [0x13, 0xFE, 0x00, 0x0C]).mem.read1 6 = .ok 0x00 ∧
    (at256 4 [0x13, 0xFE, 0x00, 0x0C]).mem.read1 7 = .ok 0x0C ∧
    (at256 4 [0x13, 0xFE, 0x00, 0x0C]).mem.read1 (wordOf 0x00 0xFE).toNat = .ok 0x00 ∧
    (at256 4 [0x13, 0xFE, 0x00, 0x0C]).mem.read1 ((wordOf 0x00 0xFE).toNat + 1) = .ok 0x00 ∧
    256 = (wordOf 0x00 0xFF).toNat + 1 ∧ 256 ≤ (wordOf 0x01 0x00).toNat ∧
    (machine defaultParams 100 97 [0x13, 0xFE, 0x00]).FirstMissingOperand 4 3 := by decide

theorem witness_StepOfAddRegReg_reduced :
    (at256 4 [0x14, 0x13, 0xFF]).loop = .idle ∧ (at256 4 [0x14, 0x13, 0xFF]).params.opcodes.Injective ∧
    (at256 4 [0x14, 0x13, 0xFF]).mem.read1 4 = .ok 0x14 ∧ (at256 4 [0x14, 0x13, 0xFF]).mem.read1 5 = .ok 0x13 ∧
    (at256 4 [0x14, 0x13, 0xFF]).mem.read1 6 = .ok 0xFF ∧ (at256 4 [0x14, 0x13, 0xFF]).params.addDecode = .reduced ∧
    Reg.r8.index = (0x13 : Byte).toNat % 10 ∧ Reg.r4.index = (0xFF : Byte).toNat % 10 ∧
    (machine defaultParams 100 98 [0x14, 0x02]).FirstMissingOperand 3 2 := by decide

theorem witness_StepOfAddRegReg_rawOffset :
    (machine rawParams 256 4 [0x14, 0x12, 0x13]).loop = .idle ∧
    (machine rawParams 256 4 [0x14, 0x12, 0x13]).params.opcodes.Injective ∧
    (machine rawParams 256 4 [0x14, 0x12, 0x13]).params.addDecode = .rawOffset ∧
    (machine rawParams 256 4 [0x14, 0x12, 0x13]).mem.read1 4 = .ok 0x14 ∧
    (machine rawParams 256 4 [0x14, 0x12, 0x13]).mem.read1 5 = .ok 0x12 ∧
    (machine rawParams 256 4 [0x14, 0x12, 0x13]).mem.read1 6 = .ok 0x13 ∧
    (0x12 : Byte).toNat ≤ 18 ∧ 19 ≤ (0x13 : Byte).toNat := by decide

theorem witness_StepOfJmpNeq :
    (machine defaultParams 100 95 [0x15, 1, 2, 3, 4]).loop = .idle ∧
    (machine defaultParams 100 95 [0x15, 1, 2, 3, 4]).params.opcodes.Injective ∧
    (machine defaultParams 100 95 [0x15, 1, 2, 3, 4]).mem.read1 95 = .ok 0x15 ∧
    (machine defaultParams 100 95 [0x15, 1, 2, 3, 4]).mem.read1 96 = .ok 1 ∧
    (machine defaultParams 100 95 [0x15, 1, 2, 3, 4]).mem.read1 97 = .ok 2 ∧
    (machine defaultParams 100 95 [0x15, 1, 2, 3, 4]).mem.read1 98 = .ok 3 ∧
    (machine defaultParams 100 95 [0x15, 1, 2, 3, 4]).mem.read1 99 = .ok 4 ∧
    (machine defaultParams 100 96 [0x15, 1, 2, 3]).FirstMissingOperand 5 4 ∧
    (machine defaultParams 100 99 [0x15]).FirstMissingOperand 5 1 := by decide

-- each of the six ways a step fails
theorem witness_StepFailuresAreTheListedKinds :
    [step (at256 0x100 []), step (at256 0 []), step (machine defaultParams 2 0 [0x10, 0x34]),
      step (at256 0 [0x13, 0xFF, 0x00, 0x02]), step (at256 0 [0x12, 0x02, 0x00, 0x01]),
      step (machine rawParams 256 0 [0x14, 0x12, 0xFF])].map failure =
    [some (.fetchFailure 0x100), some (.invalidInstruction 0x00 0), some (.executionFailure .operandFetch 2),
      some (.executionFailure .dataRead 0x100), some (.executionFailure .dataWrite 0x100),
      some (.executionFailure .regOffset 255)] := by decide

theorem witness_AcceptedStepIsNeverRefused : State.reset.loop = .idle := rfl

theorem witness_FailedStepCommitsNothing : (stepPort (at256 0 [])).result = .failed (.invalidInstruction 0x00 0) := by
  decide

theorem witness_FailedStepRepeats :
    (stepPort (at256 0 [0x13, 0xFF, 0x00, 0x02])).result = .failed (.executionFailure .dataRead 0x100) := by decide

-- J4: a target at exactly MEM_SIZE
theorem witness_OutOfRangeTargetFailsAtNextStep :
    (nextState (step ((at256 0 [0x15, 0x00, 0x00, 0x00, 0x01]).writeReg .acc 1))).map
      (fun t => decide (t.mem.size ≤ t.ip.toNat)) = some true := by decide

theorem witness_StepKeepsGood :
    (at256 4 [0x12, 0x00, 0x40, 0x00]).Good ∧ (nextState (step (at256 4 [0x12, 0x00, 0x40, 0x00]))).isSome = true := by
  decide

-- a LOAD into the last cell of a good state
theorem witness_EveryTransactionKeepsGood :
    (at256 4 [0x12, 0x00, 0x40, 0x00]).Good ∧
    ((Transaction.load 255 0x7F).apply (at256 4 [0x12, 0x00, 0x40, 0x00])).mem.read1 255 = .ok 0x7F := by decide

theorem witness_TransactionsKeepGood : defaultParams.opcodes.Injective := by decide

theorem witness_OnlyMovRegMemChangesMemory :
    (nextState (exec (.movRegMem .r1 0xFE) ((at256 0 []).writeReg .r1 0x1234))).map
      (fun t => decide (t.mem.read1 0xFF ≠ ((at256 0 []).writeReg .r1 0x1234).mem.read1 0xFF)) = some true := by decide

theorem witness_OnlyDestinationsChange :
    [Instr.movLitReg 5 .r8, .movRegReg .ip .r8, .movMemReg 0x20 .r8].map (fun i =>
      (nextState (exec i (at256 0x20 [0x12, 0x34]))).map fun t =>
        decide (t.readReg .r8 ≠ (at256 0x20 [0x12, 0x34]).readReg .r8)) = [some true, some true, some true] ∧
    (nextState (exec (.addRegReg (.reg .ip) (.offset 18)) (at256 0x20 []))).map (fun t =>
      decide (t.readReg .acc ≠ (at256 0x20 []).readReg .acc)) = some true := by decide

theorem witness_IpAfterSuccess :
    [Instr.movLitReg 5 .ip, .movLitReg 5 .r1, .movRegReg .r1 .ip, .movRegReg .ip .ip, .movRegReg .r1 .r2,
      .movRegMem .ip 0xFE, .movMemReg 0xFE .ip, .movMemReg 0xFE .r1, .addRegReg (.reg .ip) (.offset 18), .jmpNeq 0 9,
      .jmpNeq 1 9].all (fun i => (nextState (exec i (at256 0 []))).isSome) = true := by decide

-- a store at 0x40, one whose second cell is 0x10000, and loads into the first and last cell
theorem witness_StoredBytesAreFetched :
    (nextState (exec (.movRegMem .ip 0x40) (at256 0 []))).isSome = true ∧
    (nextState (exec (.movRegMem .ip 0xFFFF) (machine defaultParams 0x10001 0 []))).isSome = true ∧
    (at256 0 []).loop = .idle ∧ (0 : Word).toNat < (at256 0 []).mem.size ∧ (255 : Word).toNat < (at256 0 []).mem.size := by
  decide

-- two machines of 0x10002 cells that differ at 0x10001 alone: one that steps, one that fails
theorem witness_StepIgnoresCellsAboveReach :
    ((machine defaultParams 0x10002 0 [0x11, 2, 3]).setMem
      ⟨0x10002, [(0, 0x11), (1, 2), (2, 3), (0x10001, 7)]⟩).mem.read1 0x10001 = .ok 7 ∧
    (machine defaultParams 0x10002 0 [0x11, 2, 3]).mem = ⟨0x10002, [(0, 0x11), (1, 2), (2, 3)]⟩ ∧
    (nextState (step (machine defaultParams 0x10002 0 [0x11, 2, 3]))).isSome = true ∧
    (failure (step (machine defaultParams 0x10002 0 []))).isSome = true := by decide

-- the two memories of the witness above agree wherever a step can reach
theorem witness_StepIgnoresCellsAboveReach_agreement (x : Nat) (h : x ≤ 0x10000) :
    (⟨0x10002, [(0, 0x11), (1, 2), (2, 3), (0x10001, 7)]⟩ : Memory).read1 x =
      (⟨0x10002, [(0, 0x11), (1, 2), (2, 3)]⟩ : Memory).read1 x := by
  have hx : ¬0x10001 = x := by omega
  simp only [Memory.read1, lookupCell, hx, if_false]

theorem witness_RegisterReadIsLittleEndian :
    State.reset.rs[2 * Reg.r8.index]? = some 0 ∧ State.reset.rs[2 * Reg.r8.index + 1]? = some 0 := by decide

theorem witness_OffsetReadStraddles :
    State.reset.rs[18]? = some 0 ∧ State.reset.rs[18 + 1]? = some 0 ∧ Reg.r8.index = Reg.r7.index + 1 ∧
    Reg.acc.index = Reg.ip.index + 1 := by decide

-- a memory of 4 cells: the pair 2, 3; index 3, not listed and listed; index 4
theorem witness_MemoryReadPrimitives :
    (∀ c ∈ (Memory.new 4).cells, c.1 ≠ 3) ∧ (⟨4, [(0, 1), (3, 7)]⟩ : Memory).Wf ∧
    (3, 7) ∈ (⟨4, [(0, 1), (3, 7)]⟩ : Memory).cells ∧
    (Memory.new 4).read1 2 = .ok 0 ∧ (Memory.new 4).read1 (2 + 1) = .ok 0 ∧ (Memory.new 4).size = 3 + 1 ∧
    (Memory.new 4).size ≤ 4 ∧ 3 < (Memory.new 4).size := by decide

theorem witness_MemoryWritePrimitives :
    2 + 1 < (Memory.new 4).size ∧ (Memory.new 4).size = 3 + 1 ∧ (Memory.new 4).size ≤ 4 ∧ 3 < (Memory.new 4).size := by
  decide

-- a 2-byte write in the middle of 4 cells, with a cell on each side
theorem witness_MixedWidthAccessesAgree :
    (Memory.new 4).write2 1 0xBEEF = .ok ⟨4, [(1, 0xEF), (2, 0xBE)]⟩ ∧ (Memory.new 4).read1 (1 + 2) = .ok 0 ∧
    0 + 1 = 1 ∧ (Memory.new 4).read1 0 = .ok 0 := by decide

theorem witness_RegWriteThenReadBack :
    State.reset.loop = .idle ∧ (9 : BitVec 4).toNat ≤ 9 ∧ (0 : BitVec 4).toNat ≤ 9 ∧ 10 ≤ (10 : BitVec 4).toNat ∧
    Reg.r1.index ≠ (9 : BitVec 4).toNat := by decide

theorem witness_DumpIsAReadOnlyQuery : State.reset.loop = .idle := rfl

theorem witness_LoadWritesOneCell :
    (at256 0 []).loop = .idle ∧ 255 < (at256 0 []).mem.size ∧ (at256 0 []).mem.size ≤ 256 := by decide

theorem witness_PortsWaitForIdle : State.reset.leaveIdle.loop = .inFlight := rfl

-- P1 in small: two Ok steps, then a failure
theorem witness_RunEndsAtBudgetOrFirstFailure :
    (at256 0 [0x11, 2, 3, 0x11, 3, 1]).loop = .idle ∧
    (runSteps 2 (at256 0 [0x11, 2, 3, 0x11, 3, 1])).1 = [.ok (), .ok ()] ∧
    (runSteps 5 (at256 0 [0x11, 2, 3, 0x11, 3, 1])).1 = [.ok (), .ok (), .failed (.invalidInstruction 0x00 6)] := by decide

-- J6
theorem witness_SelfJumpRunsForever :
    ((at256 0x20 [0x15, 0, 0, 0x20, 0]).writeReg .acc 1).loop = .idle ∧
    ((at256 0x20 [0x15, 0, 0, 0x20, 0]).writeReg .acc 1).params.opcodes.Injective ∧
    0x0000 ≠ ((at256 0x20 [0x15, 0, 0, 0x20, 0]).writeReg .acc 1).readReg .acc ∧
    (∀ k, (h : k < (encode defaultParams (.jmpNeq 0x0000 0x20)).length) →
      ((at256 0x20 [0x15, 0, 0, 0x20, 0]).writeReg .acc 1).mem.read1 ((0x20 : Word) + BitVec.ofNat 16 k).toNat =
        .ok (encode defaultParams (.jmpNeq 0x0000 0x20))[k]) := by decide

-- 4 cells: a pair inside, the last cell, the first outside; and the wrap at 0xFFFF with 0x10000 cells
theorem witness_FetchReadsLowByteFirst :
    (Memory.new 4).read1 (2 : Word).toNat = .ok 0 ∧ (Memory.new 4).read1 ((2 : Word) + 1).toNat = .ok 0 ∧
    (3 : Word).toNat < (Memory.new 4).size ∧ (Memory.new 4).size ≤ ((3 : Word) + 1).toNat ∧
    (Memory.new 4).size ≤ (4 : Word).toNat ∧
    (Memory.new 0x10000).read1 (0xFFFF : Word).toNat = .ok 0 ∧
    (Memory.new 0x10000).read1 ((0xFFFF : Word) + 1).toNat = .ok 0 := by decide

theorem witness_FetchRegIndexReducesModuloTen :
    nextByte [0xFF, 0x01] = .ok (0xFF, [0x01]) ∧ nextByte [] = .error .truncated := by decide

theorem witness_DecodeEncodeAgree :
    defaultParams.opcodes.Injective ∧ rawParams.opcodes.Injective ∧
    (Instr.addRegReg (.reg .ip) (.reg .r8)).wellFormed defaultParams = true ∧
    (Instr.addRegReg (.offset 0) (.offset 255)).wellFormed rawParams = true ∧
    (Instr.jmpNeq 0xFFFF 0).wellFormed rawParams = true := by decide

theorem witness_DecodedBytesReencode :
    decode defaultParams [0x11, 0xFF, 0x0A, 0x77] = .ok (.movRegReg .r4 .ip, [0x77]) := by decide

end Sys2Proof.Machine.Tests
end

/-! ### The statements about the state (10_state.md) -/

namespace Sys2Proof.Machine

/-- What a read of a memory built from an image answers (00_scope.md R11, 20_memory.md R53). -/
theorem Memory.read1_ofImage (image : List Byte) (i : Nat) :
    (Memory.ofImage image).read1 i = if h : i < image.length then .ok image[i] else .error i := by
  rw [Memory.read1_eq]
  by_cases h : i < image.length
  · have hcell : lookupCell i (imageCells 0 image) = image[i] := by
      simpa using lookupCell_imageCells 0 image i h
    simp [Memory.ofImage, h, hcell]
  · simp [Memory.ofImage, h]

/-- A register is the little-endian value of the two bytes of its slot (10_state.md R22). -/
theorem State.readReg_of_bytes {s : State} {r : Reg} {lo hi : Byte} (hlo : s.rs[2 * r.index]? = some lo)
    (hhi : s.rs[2 * r.index + 1]? = some hi) : s.readReg r = joinBytes hi lo := by
  obtain ⟨_, rfl⟩ := Vector.getElem?_eq_some_iff.1 hlo
  obtain ⟨_, rfl⟩ := Vector.getElem?_eq_some_iff.1 hhi
  rfl

/-- What DUMP answers while the loop is `Idle` (10_state.md R35). -/
theorem dump_of_idle {s : State} (h : s.loop = .idle) : dump s = ⟨.ok (Reg.all.map s.readReg), s⟩ := by
  simp [dump, h]

/-- Settles O1: registers and storage are those of `State.construct`, and the memory is the image's. -/
theorem constructLeavesZeroRegistersAndImage : Obligations.ConstructLeavesZeroRegistersAndImage := by
  intro p image
  refine ⟨RegStorage.read_zero, fun o ho => ?storage, rfl, Memory.read1_ofImage image, rfl⟩
  case storage => simp [construct]

/-- Settles O36, from the byte-wise law of `RegStorage.write`. -/
theorem registerWriteSetsItsSlot : Obligations.RegisterWriteSetsItsSlot :=
  fun s r v o h => RegStorage.getElem_write s.rs r v o h

/-- Settles O35: the joined bytes in the spec's two spellings, as a word and as a number. -/
theorem registerReadIsLittleEndian : Obligations.RegisterReadIsLittleEndian := by
  intro s r lo hi hlo hhi
  have hread : s.readReg r = joinBytes hi lo := State.readReg_of_bytes hlo hhi
  exact ⟨hread.trans (wordOf_eq hi lo).symm, by rw [hread, joinBytes_toNat]⟩

/-- Settles O42: a second query is asked of the same state, so it answers the same. -/
theorem dumpIsAReadOnlyQuery : Obligations.DumpIsAReadOnlyQuery := by
  intro s sel hidle
  have hdump : (dump s).state = s := dump_state s
  have hread : (regRead sel s).state = s := regRead_state sel s
  exact ⟨dump_of_idle hidle, congrArg dump hdump, hread, congrArg (regRead sel) hread⟩

end Sys2Proof.Machine

/-! ### The statements about memory (20_memory.md) -/

namespace Sys2Proof.Machine

/-- A 1-byte write inside memory succeeds (20_memory.md R54). -/
theorem Memory.exists_write1_of_lt {m : Memory} {i : Nat} (h : i < m.size) (b : Byte) :
    ∃ m', m.write1 i b = .ok m' :=
  ⟨_, Memory.write1_eq_ok.2 ⟨h, rfl⟩⟩

/-- A 2-byte write with both cells inside memory succeeds (20_memory.md R54). -/
theorem Memory.exists_write2_of_lt {m : Memory} {i : Nat} (h : i + 1 < m.size) (v : Word) :
    ∃ m', m.write2 i v = .ok m' :=
  ⟨_, Memory.write2_eq_ok.2 ⟨h, rfl⟩⟩

/-- A 2-byte write fails at the first of its two cells that is outside memory (20_memory.md R54). -/
theorem Memory.write2_eq_error {m : Memory} {i j : Nat} {v : Word} :
    m.write2 i v = .error j ↔ (m.size = i + 1 ∧ j = i + 1) ∨ (m.size ≤ i ∧ j = i) := by
  rw [Memory.write2_eq]
  split_ifs with hboth hfirst
  · simp; omega
  · simp; omega
  · simp; omega

/-- What LOAD answers while the loop is `Idle` when its 1-byte write succeeds (20_memory.md R60). -/
theorem load_of_write1_ok {s : State} {m : Memory} {i : Nat} {b : Byte} (hidle : s.loop = .idle)
    (hw : s.mem.write1 i b = .ok m) : load i b s = ⟨.ok (), s.setMem m⟩ := by
  simp [load, grants, hidle, hw]

/-- What LOAD answers while the loop is `Idle` when its 1-byte write fails (20_memory.md R60). -/
theorem load_of_write1_error {s : State} {i j : Nat} {b : Byte} (hidle : s.loop = .idle)
    (hw : s.mem.write1 i b = .error j) : load i b s = ⟨.failed (.outOfBounds j), s⟩ := by
  simp [load, grants, hidle, hw]

/-- Settles O39: inside memory the laws of a successful write read it back, outside it the failure laws name the first
cell that is missing. -/
theorem memoryWritePrimitives : Obligations.MemoryWritePrimitives := by
  intro m i b v
  refine ⟨fun hin => ?one, fun hout => Memory.write1_eq_error.2 ⟨hout, rfl⟩, fun hin => ?two,
    fun hlast => Memory.write2_eq_error.2 (.inl ⟨hlast, rfl⟩),
    fun hout => Memory.write2_eq_error.2 (.inr ⟨hout, rfl⟩)⟩
  case one =>
    obtain ⟨m', hw⟩ := Memory.exists_write1_of_lt hin b
    exact ⟨m', hw, (Memory.write1_spec hw).2⟩
  case two =>
    obtain ⟨m', hw⟩ := Memory.exists_write2_of_lt hin v
    exact ⟨m', hw, (Memory.write2_spec hw).2⟩

/-- Settles O43: inside memory LOAD is a 1-byte write of the memory alone, outside it LOAD answers the bare failure. -/
theorem loadWritesOneCell : Obligations.LoadWritesOneCell := by
  intro s i b hidle
  refine ⟨fun hin => ?inside, fun hout => ?outside⟩
  case inside =>
    obtain ⟨m, hw⟩ := Memory.exists_write1_of_lt hin b
    have hcells := (Memory.write1_spec hw).2
    exact ⟨s.setMem m, load_of_write1_ok hidle hw, hcells, s.setMem_readReg m, s.setMem_params m,
      (s.setMem_loop m).trans hidle⟩
  case outside =>
    exact load_of_write1_error hidle (Memory.write1_eq_error.2 ⟨hout, rfl⟩)

end Sys2Proof.Machine

/-! ### The statements about encoding (30_encoding.md) -/

namespace Sys2Proof

/-- Under an injective map a byte stands for an opcode exactly when it is that opcode's byte (30_encoding.md R90). -/
theorem decodeOpcode_eq_some {m : OpcodeMap} (hinj : m.Injective) {b : Byte} {op : Opcode} :
    decodeOpcode m b = some op ↔ b = m.byte op :=
  ⟨byte_of_decodeOpcode, fun hb => hb ▸ decodeOpcode_byte hinj op⟩

section Sources

variable {σ ε : Type} {get : σ → Except ε (Byte × σ)} {c c₁ c₂ : σ} {b lo hi : Byte} {e : ε}

/-- FetchRegIndex of a byte that is read (30_encoding.md R83). -/
theorem fetchReg_of_ok (h : get c = .ok (b, c₁)) : fetchReg get c = .ok (Reg.ofByte b, c₁) := by
  rw [fetchReg, h]
  rfl

/-- FetchRegIndex of a byte that is not read (30_encoding.md R83). -/
theorem fetchReg_of_error (h : get c = .error e) : fetchReg get c = .error e := by
  rw [fetchReg, h]
  rfl

/-- FetchWide of two bytes that are read, the first of them the low one (30_encoding.md R82). -/
theorem fetchWide_of_ok (hlo : get c = .ok (lo, c₁)) (hhi : get c₁ = .ok (hi, c₂)) :
    fetchWide get c = .ok (joinBytes hi lo, c₂) := by
  simp only [fetchWide, hlo, hhi, bind, Except.bind, pure, Except.pure]

/-- FetchWide where the low byte is not read (30_encoding.md R82). -/
theorem fetchWide_of_low_error (hlo : get c = .error e) : fetchWide get c = .error e := by
  rw [fetchWide, hlo]
  rfl

/-- FetchWide where the low byte is read and the high byte is not (30_encoding.md R82). -/
theorem fetchWide_of_high_error (hlo : get c = .ok (lo, c₁)) (hhi : get c₁ = .error e) :
    fetchWide get c = .error e := by
  simp only [fetchWide, hlo, hhi, bind, Except.bind]

end Sources

end Sys2Proof

namespace Sys2Proof.Machine

/-- A fetch of a cell that exists moves the cursor on by one, in 16-bit addition (30_encoding.md R81). -/
theorem fetchByte_of_read1 {m : Memory} {cur : Word} {b : Byte} (h : m.read1 cur.toNat = .ok b) :
    fetchByte m cur = .ok (b, cur + 1) := by
  rw [fetchByte, h]
  rfl

/-- A fetch outside memory fails with the cell's index (30_encoding.md R81). -/
theorem fetchByte_of_size_le {m : Memory} {cur : Word} (h : m.size ≤ cur.toNat) :
    fetchByte m cur = .error cur.toNat := by
  rw [fetchByte_eq, if_neg h.not_gt]

/-- An opcode byte that is none of the six ends the fetch, whatever follows it (60_exceptions.md R163). -/
theorem fetchInstr_of_not_mem {s : State} {b : Byte} (hread : s.mem.read1 s.ip.toNat = .ok b)
    (hmap : b ∉ s.params.opcodes.toList) : fetchInstr s = .error (.invalidInstruction b s.ip) := by
  have hnone : decodeOpcode s.params.opcodes b = none := decodeOpcode_eq_none.2 hmap
  simp only [fetchInstr, fetchByte_of_read1 hread, hnone]

/-- Settles O14: the map is read both ways, what a fetch succeeds with names the same byte as the one read, and a byte
outside the map ends the fetch before any operand byte is looked at. -/
theorem opcodeByteDecidesInstruction : Obligations.OpcodeByteDecidesInstruction := by
  intro s b hidle hinj hread
  refine ⟨fun op => decodeOpcode_eq_some hinj, fun i cur hfetch => ?fetched, fun hmap => ?invalid⟩
  case fetched =>
    obtain ⟨hbyte, -, hcur, -⟩ := fetchInstr_ok_cases hfetch
    exact ⟨Except.ok.inj (hread.symm.trans hbyte), hcur⟩
  case invalid =>
    exact step_of_fetchInstr_error hidle (fetchInstr_of_not_mem hread hmap)

/-- Settles O47: FetchWide is two fetches, so each of its clauses is the two answers of `fetchByte` at `cur` and
`cur + 1`. -/
theorem fetchReadsLowByteFirst : Obligations.FetchReadsLowByteFirst := by
  intro m cur
  refine ⟨fun b => fetchByte_of_read1, fetchByte_of_size_le, fun lo hi hlo hhi => ?wide,
    fun hlow => fetchWide_of_low_error (fetchByte_of_size_le hlow), fun hlow hhigh => ?high⟩
  case wide =>
    have hcur : cur + 1 + 1 = cur + 2 := advance_advance cur 1 1
    rw [wordOf_eq, ← hcur]
    exact fetchWide_of_ok (fetchByte_of_read1 hlo) (fetchByte_of_read1 hhi)
  case high =>
    have hlo : m.read1 cur.toNat = .ok (lookupCell cur.toNat m.cells) := Memory.read1_eq_ok.2 ⟨hlow, rfl⟩
    exact fetchWide_of_high_error (fetchByte_of_read1 hlo) (fetchByte_of_size_le hhigh)

/-- Settles O48: the register fetched is the one the byte names, whose index is the byte modulo 10. -/
theorem fetchRegIndexReducesModuloTen : Obligations.FetchRegIndexReducesModuloTen := by
  intro σ ε get c
  exact ⟨fun b c' hget => ⟨Reg.ofByte b, fetchReg_of_ok hget, Reg.index_ofByte b⟩, fun e => fetchReg_of_error⟩

end Sys2Proof.Machine

/-! ### The statements about data movement (40_data_movement.md) -/

namespace Sys2Proof

/-- The register a byte names is the one whose index is the byte modulo 10 (30_encoding.md R83). -/
theorem Reg.eq_ofByte_iff {b : Byte} {r : Reg} : r = Reg.ofByte b ↔ r.index = b.toNat % 10 := by
  rw [← Reg.index_ofByte, Reg.index_eq_index]

end Sys2Proof

namespace Sys2Proof.Machine

/-! #### The step, from the bytes at `ip` -/

theorem Holds.nil {m : Memory} {c : Word} : Holds m c [] :=
  fun _ hk => absurd hk (Nat.not_lt_zero _)

/-- One more byte held, counted as an offset from a fixed address. -/
theorem Holds.cons {m : Memory} {a : Word} {n : Nat} {b : Byte} {bytes : List Byte}
    (hb : m.read1 (a + BitVec.ofNat 16 n).toNat = .ok b) (hbytes : Holds m (advance a (n + 1)) bytes) :
    Holds m (advance a n) (b :: bytes) := by
  intro k hk
  cases k with
  | zero => rwa [advance_zero]
  | succ k =>
    have hrest := hbytes k (Nat.lt_of_succ_lt_succ hk)
    rwa [advance_advance, Nat.add_assoc, Nat.add_comm 1 k, ← advance_advance] at hrest

/-- A first operand byte outside memory ends the fetch, whatever the operands (60_exceptions.md R162, R167). -/
theorem fetchInstr_of_firstMissingOperand {s : State} {op : Opcode} {n : Nat} (hinj : s.params.opcodes.Injective)
    (hread : s.mem.read1 s.ip.toNat = .ok (s.params.opcodes.byte op)) (hmissing : s.FirstMissingOperand op.length n) :
    fetchInstr s = .error (.executionFailure .operandFetch (s.ip + BitVec.ofNat 16 n).toNat) := by
  obtain ⟨hpos, hlen, hbefore, hout⟩ := hmissing
  have hcursor : ∀ k, advance (advance s.ip 1) k = s.ip + BitVec.ofNat 16 (k + 1) := fun k => by
    rw [advance_advance, Nat.add_comm, advance]
  obtain ⟨k, rfl⟩ := Nat.exists_eq_add_of_le' hpos
  have hops : decodeOperands (fetchByte s.mem) s.params op (advance s.ip 1) =
      .error (advance (advance s.ip 1) k).toNat :=
    decodeOperands_missing hlen
      (fun j hj => hcursor j ▸ hbefore (j + 1) (Nat.succ_lt_succ hj) (Nat.succ_pos j)) (hcursor k ▸ hout)
  have hopcode : fetchByte s.mem s.ip = .ok (s.params.opcodes.byte op, advance s.ip 1) := fetchByte_of_read1 hread
  simp only [fetchInstr, hopcode, decodeOpcode_byte hinj, hops, hcursor]

section OpcodeAtIp

variable {s : State} {op : Opcode} (hidle : s.loop = .idle) (hinj : s.params.opcodes.Injective)
  (hread : s.mem.read1 s.ip.toNat = .ok (s.params.opcodes.byte op))

include hidle hinj hread

/-- A step runs the instruction whose opcode byte is at `ip` and whose operand bytes follow it (30_encoding.md R100). -/
theorem step_of_operands_held {bytes : List Byte} {i : Instr} (hops : Holds s.mem (advance s.ip 1) bytes)
    (hdecode : decodeOperands nextByte s.params op bytes = .ok (i, [])) : step s = exec i s := by
  obtain ⟨cur, hfetch⟩ := fetchInstr_of_holds hread (decodeOpcode_byte hinj op) hops hdecode
  exact step_of_fetchInstr hidle hfetch

/-- A step whose operand bytes are not all in memory fails at the first that is missing (60_exceptions.md R162). -/
theorem step_of_firstMissingOperand (n : Nat) (hmissing : s.FirstMissingOperand op.length n) :
    step s = .fault (.executionFailure .operandFetch (s.ip + BitVec.ofNat 16 n).toNat) :=
  step_of_fetchInstr_error hidle (fetchInstr_of_firstMissingOperand hinj hread hmissing)

end OpcodeAtIp

/-! #### What the four moves do -/

/-- A 2-byte read of two cells that exist (20_memory.md R55). -/
theorem Memory.read2_of_read1 {m : Memory} {i : Nat} {lo hi : Byte} (hlo : m.read1 i = .ok lo)
    (hhi : m.read1 (i + 1) = .ok hi) : m.read2 i = .ok (joinBytes hi lo) := by
  simp only [Memory.read2, hlo, hhi, bind, Except.bind, pure, Except.pure]

/-- A 2-byte read fails at the first of its two cells that is outside memory (20_memory.md R53). -/
theorem Memory.read2_eq_error {m : Memory} {i j : Nat} :
    m.read2 i = .error j ↔ (m.size = i + 1 ∧ j = i + 1) ∨ (m.size ≤ i ∧ j = i) := by
  rw [Memory.read2_eq]
  split_ifs <;> simp <;> omega

section Moves

variable {s : State} {r d : Reg} {addr : Word}

/-- MOV_LIT_REG commits its literal (40_data_movement.md R120). -/
theorem exec_movLitReg (lit : Word) (d : Reg) (s : State) :
    exec (.movLitReg lit d) s = .next (s.commit (s.ip + 4) (.register d lit)) := rfl

/-- MOV_REG_REG commits its source, which for `ip` is the following address (40_data_movement.md R122). -/
theorem exec_movRegReg (r d : Reg) (s : State) :
    exec (.movRegReg r d) s =
      .next (s.commit (s.ip + 3) (.register d (if r = .ip then s.ip + 3 else s.readReg r))) := by
  rw [← State.source_eq]
  rfl

/-- MOV_REG_MEM commits the memory that the 2-byte write of its source leaves (40_data_movement.md R124). -/
theorem exec_movRegMem_of_ok {m : Memory}
    (hw : s.mem.write2 addr.toNat (if r = .ip then s.ip + 4 else s.readReg r) = .ok m) :
    exec (.movRegMem r addr) s = .next (s.commit (s.ip + 4) (.memory m)) := by
  rw [← State.source_eq] at hw
  have hw' : s.mem.write2 addr.toNat (s.source (s.cursorAfter .movRegMem) r) = .ok m := hw
  simp only [exec, execMovRegMem, hw']
  rfl

/-- MOV_REG_MEM fails where its 2-byte write does (40_data_movement.md R124). -/
theorem exec_movRegMem_of_error {j : Nat}
    (hw : ∀ v, s.mem.write2 addr.toNat v = .error j) :
    exec (.movRegMem r addr) s = .fault (.executionFailure .dataWrite j) := by
  simp only [exec, execMovRegMem, hw]

/-- MOV_MEM_REG commits the value its 2-byte read gives (40_data_movement.md R126). -/
theorem exec_movMemReg_of_ok {v : Word} (hv : s.mem.read2 addr.toNat = .ok v) :
    exec (.movMemReg addr d) s = .next (s.commit (s.ip + 4) (.register d v)) := by
  simp only [exec, execMovMemReg, hv]
  rfl

/-- MOV_MEM_REG fails where its 2-byte read does (40_data_movement.md R126). -/
theorem exec_movMemReg_of_error {j : Nat} (hv : s.mem.read2 addr.toNat = .error j) :
    exec (.movMemReg addr d) s = .fault (.executionFailure .dataRead j) := by
  simp only [exec, execMovMemReg, hv]

/-- A step that commits a register named by an operand byte: its result and its frame (30_encoding.md R83, R100). -/
theorem step_register_frame {cur v : Word} {d : Byte}
    (hstep : step s = .next (s.commit cur (.register (Reg.ofByte d) v))) :
    ∃ t, step s = .next t ∧
      (∀ r, t.readReg r = if r.index = d.toNat % 10 then v else if r = .ip then cur else s.readReg r) ∧
      (∀ x, t.mem.read1 x = s.mem.read1 x) ∧ t.params = s.params ∧ t.loop = .idle := by
  refine ⟨_, hstep, fun r => ?regs, fun x => rfl, s.commit_params .., s.commit_loop ..⟩
  case regs => rw [State.commit_register_readReg]; exact if_congr Reg.eq_ofByte_iff rfl rfl

end Moves

/-- Settles O15: the three operand bytes are the literal, low byte first, and the destination. -/
theorem stepOfMovLitReg : Obligations.StepOfMovLitReg := by
  intro s hidle hinj hread
  refine ⟨fun lo hi d hlo hhi hd => ?completes, step_of_firstMissingOperand (op := .movLitReg) hidle hinj hread⟩
  case completes =>
    have hops : Holds s.mem (advance s.ip 1) [lo, hi, d] := .cons hlo (.cons hhi (.cons hd .nil))
    have hstep : step s = exec (.movLitReg (joinBytes hi lo) (Reg.ofByte d)) s :=
      step_of_operands_held (op := .movLitReg) hidle hinj hread hops rfl
    rw [wordOf_eq]
    exact step_register_frame (hstep.trans (exec_movLitReg _ _ s))

/-- Settles O16: the two operand bytes are the source and the destination, each reduced. -/
theorem stepOfMovRegReg : Obligations.StepOfMovRegReg := by
  intro s hidle hinj hread
  refine ⟨fun b d src hb hd hsrc => ?completes, step_of_firstMissingOperand (op := .movRegReg) hidle hinj hread⟩
  case completes =>
    obtain rfl : src = Reg.ofByte b := Reg.eq_ofByte_iff.2 hsrc
    have hops : Holds s.mem (advance s.ip 1) [b, d] := .cons hb (.cons hd .nil)
    have hstep : step s = exec (.movRegReg (Reg.ofByte b) (Reg.ofByte d)) s :=
      step_of_operands_held (op := .movRegReg) hidle hinj hread hops rfl
    exact step_register_frame (hstep.trans (exec_movRegReg _ _ s))

/-- Settles O17: the step is the move with the assembled address, which then does what its 2-byte write does. -/
theorem stepOfMovRegMem : Obligations.StepOfMovRegMem := by
  intro s hidle hinj hread
  refine ⟨fun b lo hi src hb hlo hhi hsrc => ?moves, step_of_firstMissingOperand (op := .movRegMem) hidle hinj hread⟩
  case moves =>
    obtain rfl : src = Reg.ofByte b := Reg.eq_ofByte_iff.2 hsrc
    have hops : Holds s.mem (advance s.ip 1) [b, lo, hi] := .cons hb (.cons hlo (.cons hhi .nil))
    have hstep : step s = exec (.movRegMem (Reg.ofByte b) (joinBytes hi lo)) s :=
      step_of_operands_held (op := .movRegMem) hidle hinj hread hops rfl
    rw [wordOf_eq, hstep]
    refine ⟨fun hin => ?stored, fun hlast => ?secondMissing, fun hout => ?firstMissing⟩
    case stored =>
      obtain ⟨m, hw⟩ := Memory.exists_write2_of_lt hin
        (if Reg.ofByte b = .ip then s.ip + 4 else s.readReg (Reg.ofByte b))
      exact ⟨_, exec_movRegMem_of_ok hw, fun r => s.commit_memory_readReg _ r m, (Memory.write2_spec hw).2,
        s.commit_params .., s.commit_loop ..⟩
    case secondMissing =>
      exact exec_movRegMem_of_error fun v => Memory.write2_eq_error.2 (.inl ⟨hlast, rfl⟩)
    case firstMissing =>
      exact exec_movRegMem_of_error fun v => Memory.write2_eq_error.2 (.inr ⟨hout, rfl⟩)

/-- Settles O18: the step is the move with the assembled address, which then does what its 2-byte read does. -/
theorem stepOfMovMemReg : Obligations.StepOfMovMemReg := by
  intro s hidle hinj hread
  refine ⟨fun lo hi d hlo hhi hd => ?moves, step_of_firstMissingOperand (op := .movMemReg) hidle hinj hread⟩
  case moves =>
    have hops : Holds s.mem (advance s.ip 1) [lo, hi, d] := .cons hlo (.cons hhi (.cons hd .nil))
    have hstep : step s = exec (.movMemReg (joinBytes hi lo) (Reg.ofByte d)) s :=
      step_of_operands_held (op := .movMemReg) hidle hinj hread hops rfl
    rw [wordOf_eq]
    refine ⟨fun vlo vhi hvlo hvhi => ?loaded, fun hlast => ?secondMissing, fun hout => ?firstMissing⟩
    case loaded =>
      rw [wordOf_eq]
      exact step_register_frame (hstep.trans (exec_movMemReg_of_ok (Memory.read2_of_read1 hvlo hvhi)))
    case secondMissing =>
      exact hstep.trans (exec_movMemReg_of_error (Memory.read2_eq_error.2 (.inl ⟨hlast, rfl⟩)))
    case firstMissing =>
      exact hstep.trans (exec_movMemReg_of_error (Memory.read2_eq_error.2 (.inr ⟨hout, rfl⟩)))

end Sys2Proof.Machine

/-! ### The statements about arithmetic (41_arithmetic.md) -/

namespace Sys2Proof.Machine

/-- ADD_REG_REG reads its sources at the address three bytes on (30_encoding.md R84, R87). -/
theorem State.cursorAfter_addRegReg (s : State) : s.cursorAfter .addRegReg = s.ip + 3 := rfl

/-- A register source never fails, and reads the cursor for `ip` (41_arithmetic.md R140). -/
theorem State.addSource_reg (s : State) (cur : Word) (r : Reg) :
    s.addSource cur (.reg r) = .ok (if r = .ip then cur else s.readReg r) := by
  rw [← State.source_eq]
  rfl

/-- A raw offset from 19 on fails with the offset (41_arithmetic.md R140). -/
theorem State.addSource_offset_of_ge (s : State) (cur : Word) {o : Byte} (h : 19 ≤ o.toNat) :
    s.addSource cur (.offset o) = .error o.toNat :=
  RegStorage.read16_of_ge h

section AddRegReg

variable {s : State} {p q : AddOperand} {u w : Word} {o : Nat}

/-- ADD_REG_REG commits the sum of its two sources, read at the following address, to `acc` (41_arithmetic.md R140,
R141). -/
theorem exec_addRegReg_of_ok (hp : s.addSource (s.ip + 3) p = .ok u) (hq : s.addSource (s.ip + 3) q = .ok w) :
    exec (.addRegReg p q) s = .next (s.commit (s.ip + 3) (.register .acc (u + w))) := by
  simp only [exec, execAddRegReg, State.cursorAfter_addRegReg, hp, hq, wrappingSum_eq]

/-- ADD_REG_REG fails where its first source does, whatever the second (41_arithmetic.md R140). -/
theorem exec_addRegReg_of_first_error (hp : s.addSource (s.ip + 3) p = .error o) :
    exec (.addRegReg p q) s = .fault (.executionFailure .regOffset o) := by
  simp only [exec, execAddRegReg, State.cursorAfter_addRegReg, hp]

/-- ADD_REG_REG fails where its second source does, once the first is read (41_arithmetic.md R140). -/
theorem exec_addRegReg_of_second_error (hp : s.addSource (s.ip + 3) p = .ok u)
    (hq : s.addSource (s.ip + 3) q = .error o) :
    exec (.addRegReg p q) s = .fault (.executionFailure .regOffset o) := by
  simp only [exec, execAddRegReg, State.cursorAfter_addRegReg, hp, hq]

/-- A step that is an ADD_REG_REG whose sources are both read: its sum and its frame (41_arithmetic.md R140). -/
theorem step_addRegReg_frame (hstep : step s = exec (.addRegReg p q) s)
    (hp : s.addSource (s.ip + 3) p = .ok u) (hq : s.addSource (s.ip + 3) q = .ok w) :
    ∃ t, step s = .next t ∧ t.readReg .acc = u + w ∧
      (∀ r, r ≠ .acc → t.readReg r = if r = .ip then s.ip + 3 else s.readReg r) ∧
      (∀ x, t.mem.read1 x = s.mem.read1 x) ∧ t.params = s.params ∧ t.loop = .idle := by
  refine ⟨_, hstep.trans (exec_addRegReg_of_ok hp hq), ?sum, fun r hr => ?others, fun x => rfl,
    s.commit_params .., s.commit_loop ..⟩
  case sum => rw [State.commit_register_readReg, if_pos rfl]
  case others => rw [State.commit_register_readReg, if_neg hr]

end AddRegReg

/-- Settles O19: `ADD_OPERAND_DECODE` decides only what the two operand bytes stand for; register sources are always
read, and raw offsets are read up to 18, the first operand's before the second's. -/
theorem stepOfAddRegReg : Obligations.StepOfAddRegReg := by
  intro s hidle hinj hread
  refine ⟨fun p q hp hq => ?adds, step_of_firstMissingOperand (op := .addRegReg) hidle hinj hread⟩
  case adds =>
    have hops : Holds s.mem (advance s.ip 1) [p, q] := .cons hp (.cons hq .nil)
    have hstep : step s =
        exec (.addRegReg (.ofByte s.params.addDecode p) (.ofByte s.params.addDecode q)) s :=
      step_of_operands_held (op := .addRegReg) hidle hinj hread hops rfl
    refine ⟨fun hmode j k hj hk => ?reduced, fun hmode => ?rawOffset⟩
    case reduced =>
      obtain rfl : j = Reg.ofByte p := Reg.eq_ofByte_iff.2 hj
      obtain rfl : k = Reg.ofByte q := Reg.eq_ofByte_iff.2 hk
      rw [hmode] at hstep
      exact step_addRegReg_frame hstep (s.addSource_reg ..) (s.addSource_reg ..)
    case rawOffset =>
      rw [hmode] at hstep
      refine ⟨fun hp18 hq18 => ?sum, fun hp19 => ?firstFails, fun hp18 hq19 => ?secondFails⟩
      case sum =>
        exact step_addRegReg_frame hstep (s.addSource_offset _ hp18) (s.addSource_offset _ hq18)
      case firstFails =>
        exact hstep.trans (exec_addRegReg_of_first_error (s.addSource_offset_of_ge _ hp19))
      case secondFails =>
        exact hstep.trans
          (exec_addRegReg_of_second_error (s.addSource_offset _ hp18) (s.addSource_offset_of_ge _ hq19))

end Sys2Proof.Machine

/-! ### The statements about control transfer (42_control_transfer.md) -/

namespace Sys2Proof.Machine

/-- `acc` as a source is the register itself, wherever the cursor stands (30_encoding.md R84). -/
theorem State.source_acc (s : State) (cur : Word) : s.source cur .acc = s.readReg .acc := by
  rw [State.source_eq, if_neg Reg.noConfusion]

section JmpNeq

variable {s : State} {cmp target : Word}

/-- JMP_NEQ that falls through stages nothing: the commit alone moves `ip` (42_control_transfer.md R150). -/
theorem exec_jmpNeq_of_eq (h : cmp = s.readReg .acc) :
    exec (.jmpNeq cmp target) s = .next (s.commit (s.ip + 5) .nothing) := by
  have hdiffers : ¬differs cmp (s.readReg .acc) = true := fun hd => differs_eq_true.1 hd h
  simp only [exec, execJmpNeq, State.source_acc, if_neg hdiffers]
  rfl

/-- JMP_NEQ that jumps stages its target, whatever it is, as the write of `ip` (42_control_transfer.md R150, R152). -/
theorem exec_jmpNeq_of_ne (h : cmp ≠ s.readReg .acc) :
    exec (.jmpNeq cmp target) s = .next (s.commit (s.ip + 5) (.register .ip target)) := by
  simp only [exec, execJmpNeq, State.source_acc, if_pos (differs_eq_true.2 h)]
  rfl

end JmpNeq

/-- A JMP_NEQ completes and changes `ip` alone (42_control_transfer.md R150). -/
theorem exec_jmpNeq_frame (cmp target : Word) (s : State) :
    ∃ t, exec (.jmpNeq cmp target) s = .next t ∧
      (∀ r, t.readReg r =
        if r = .ip then (if cmp = s.readReg .acc then s.ip + 5 else target) else s.readReg r) ∧
      (∀ x, t.mem.read1 x = s.mem.read1 x) ∧ t.params = s.params ∧ t.loop = .idle := by
  by_cases hcmp : cmp = s.readReg .acc
  case pos =>
    refine ⟨_, exec_jmpNeq_of_eq hcmp, fun r => ?fallsThrough, fun x => rfl, s.commit_params .., s.commit_loop ..⟩
    case fallsThrough => rw [State.commit_nothing_readReg, if_pos hcmp]
  case neg =>
    refine ⟨_, exec_jmpNeq_of_ne hcmp, fun r => ?jumps, fun x => rfl, s.commit_params .., s.commit_loop ..⟩
    case jumps =>
      rw [State.commit_register_readReg, if_neg hcmp]
      exact ite_congr rfl (fun _ => rfl) fun hr => if_neg hr

/-- Settles O20: the four operand bytes are the comparison value and the target, each low byte first. -/
theorem stepOfJmpNeq : Obligations.StepOfJmpNeq := by
  intro s hidle hinj hread
  refine ⟨fun clo chi tlo thi hclo hchi htlo hthi => ?completes,
    step_of_firstMissingOperand (op := .jmpNeq) hidle hinj hread⟩
  case completes =>
    have hops : Holds s.mem (advance s.ip 1) [clo, chi, tlo, thi] :=
      .cons hclo (.cons hchi (.cons htlo (.cons hthi .nil)))
    have hstep : step s = exec (.jmpNeq (joinBytes chi clo) (joinBytes thi tlo)) s :=
      step_of_operands_held (op := .jmpNeq) hidle hinj hread hops rfl
    rw [wordOf_eq, wordOf_eq, hstep]
    exact exec_jmpNeq_frame _ _ s

end Sys2Proof.Machine

/-! ### The statements about failures (60_exceptions.md) -/

namespace Sys2Proof.Machine

/-- An opcode byte outside memory ends the fetch with the index `ip` names (60_exceptions.md R161). -/
theorem fetchInstr_of_size_le {s : State} (hout : s.mem.size ≤ s.ip.toNat) :
    fetchInstr s = .error (.fetchFailure s.ip.toNat) := by
  simp only [fetchInstr, fetchByte_of_size_le hout]

/-- STEP answers a failure only where the step faults, and hands back the state it was given (60_exceptions.md R165). -/
theorem stepPort_failed {s : State} {f : Fault} (hfailed : (stepPort s).result = .failed f) :
    step s = .fault f ∧ stepPort s = ⟨.failed f, s⟩ := by
  obtain ⟨t, -, hport⟩ | ⟨g, hstep, hport⟩ | ⟨r, -, hport⟩ := stepPort_cases s
  case inl => simp [hport] at hfailed
  case inr.inl =>
    obtain rfl : g = f := by simpa [hport] using hfailed
    exact ⟨hstep, hport⟩
  case inr.inr => simp [hport] at hfailed

/-- Settles O13: a step whose fetch fails reports the failure of the fetch. -/
theorem opcodeFetchOutOfRangeFails : Obligations.OpcodeFetchOutOfRangeFails :=
  fun _ hidle hout => step_of_fetchInstr_error hidle (fetchInstr_of_size_le hout)

/-- Settles O23: the port hands back the state itself, and the step could fault only because that state was `Idle`. -/
theorem failedStepCommitsNothing : Obligations.FailedStepCommitsNothing := by
  intro s f hfailed
  obtain ⟨hfault, hport⟩ := stepPort_failed hfailed
  obtain ⟨hidle, -⟩ := step_fault_cases hfault
  have hstate : (stepPort s).state = s := congrArg Reply.state hport
  rw [hstate]
  exact ⟨rfl, fun _ => rfl, fun _ => rfl, rfl, hidle⟩

end Sys2Proof.Machine

/-! ### The invariant (10_state.md section 7, 20_memory.md section 1) -/

namespace Sys2Proof.Machine

section ExecNext

variable {i : Instr} {s t : State}

/-- The one memory an instruction can leave besides the one it found: what the 2-byte write of a MOV_REG_MEM answers
(40_data_movement.md R124). -/
theorem exec_next_mem (h : exec i s = .next t) :
    t.mem = s.mem ∨ ∃ r addr, i = .movRegMem r addr ∧
      s.mem.write2 addr.toNat (if r = .ip then s.ip + 4 else s.readReg r) = .ok t.mem := by
  obtain ⟨lit, d, -, rfl⟩ | ⟨r, d, -, rfl⟩ | ⟨r, addr, m, rfl, hw, rfl⟩ | ⟨addr, d, v, -, -, rfl⟩ |
    ⟨p, q, u, w, -, -, -, rfl⟩ | ⟨cmp, target, -, rfl⟩ := exec_next_cases h
  case inr.inr.inl =>
    rw [State.source_eq] at hw
    exact .inr ⟨r, addr, rfl, hw⟩
  case inr.inr.inr.inr.inr => left; split <;> rfl
  all_goals exact .inl rfl

/-- Every instruction that completes ends in a commit, which changes no parameter and ends in `Idle` (30_encoding.md
R100). -/
theorem exec_next_params_loop (h : exec i s = .next t) : t.params = s.params ∧ t.loop = .idle := by
  obtain ⟨lit, d, -, rfl⟩ | ⟨r, d, -, rfl⟩ | ⟨r, addr, m, -, -, rfl⟩ | ⟨addr, d, v, -, -, rfl⟩ |
    ⟨p, q, u, w, -, -, -, rfl⟩ | ⟨cmp, target, -, rfl⟩ := exec_next_cases h
  all_goals exact ⟨s.commit_params .., s.commit_loop ..⟩

/-- An instruction that completes keeps the memory's canonical form and its length (20_memory.md section 1). -/
theorem exec_next_mem_wf (hwf : s.mem.Wf) (h : exec i s = .next t) : t.mem.Wf ∧ t.mem.size = s.mem.size := by
  obtain hmem | ⟨r, addr, -, hw⟩ := exec_next_mem h
  case inl => rw [hmem]; exact ⟨hwf, rfl⟩
  case inr => exact ⟨Memory.write2_wf hwf hw, (Memory.write2_spec hw).1⟩

end ExecNext

/-- Settles O27: the next state is that of the instruction fetched, and no instruction leaves the invariant. -/
theorem stepKeepsGood : Obligations.StepKeepsGood := by
  rintro s t ⟨hwf, hinj, -⟩ hstep
  obtain ⟨-, i, cur, -, hexec⟩ := step_next_cases hstep
  obtain ⟨hparams, hloop⟩ := exec_next_params_loop hexec
  obtain ⟨hwf', hsize⟩ := exec_next_mem_wf hwf hexec
  exact ⟨⟨hwf', hparams ▸ hinj, hloop⟩, hparams, hsize⟩

/-- LOAD keeps the invariant, whatever its index (20_memory.md R60). -/
theorem load_keeps_good {s : State} (hgood : s.Good) (i : Nat) (b : Byte) :
    (load i b s).state.Good ∧ (load i b s).state.params = s.params ∧ (load i b s).state.mem.size = s.mem.size := by
  obtain ⟨hwf, hinj, hidle⟩ := hgood
  obtain ⟨m, -, hw, hload⟩ | ⟨-, -, hload⟩ | ⟨-, hload⟩ := load_cases i b s
  case inl => rw [hload]; exact ⟨⟨Memory.write1_wf hwf hw, hinj, hidle⟩, rfl, (Memory.write1_spec hw).1⟩
  all_goals rw [hload]; exact ⟨⟨hwf, hinj, hidle⟩, rfl, rfl⟩

/-- STEP keeps the invariant: a step that does not commit leaves its state (60_exceptions.md R165). -/
theorem stepPort_keeps_good {s : State} (hgood : s.Good) :
    (stepPort s).state.Good ∧ (stepPort s).state.params = s.params ∧ (stepPort s).state.mem.size = s.mem.size := by
  obtain ⟨t, hstep, hport⟩ | ⟨f, -, hport⟩ | ⟨r, -, hport⟩ := stepPort_cases s
  case inl => rw [hport]; exact stepKeepsGood s t hgood hstep
  all_goals rw [hport]; exact ⟨hgood, rfl, rfl⟩

/-- REG_WRITE keeps the invariant, which no register is part of (10_state.md R33). -/
theorem regWrite_keeps_good {s : State} (hgood : s.Good) (select : BitVec 4) (v : Word) :
    (regWrite select v s).state.Good ∧ (regWrite select v s).state.params = s.params ∧
      (regWrite select v s).state.mem.size = s.mem.size := by
  obtain ⟨r, -, -, hwrite⟩ | hsame := regWrite_state_cases select v s
  case inl => rw [hwrite]; exact ⟨hgood, rfl, rfl⟩
  case inr => rw [hsame]; exact ⟨hgood, rfl, rfl⟩

/-- Settles O52, transaction by transaction. -/
theorem everyTransactionKeepsGood : Obligations.EveryTransactionKeepsGood := by
  intro s tx hgood
  cases tx with
  | load i b => exact load_keeps_good hgood i b
  | step => exact stepPort_keeps_good hgood
  | regRead select =>
    have hsame : Transaction.apply s (.regRead select) = s := regRead_state select s
    rw [hsame]
    exact ⟨hgood, rfl, rfl⟩
  | regWrite select v => exact regWrite_keeps_good hgood select v
  | dump =>
    have hsame : Transaction.apply s .dump = s := dump_state s
    rw [hsame]
    exact ⟨hgood, rfl, rfl⟩

/-- Any sequence of transactions keeps the invariant, the parameters and the memory's length. -/
theorem applyAll_keeps_good (ts : List Transaction) {s : State} (hgood : s.Good) :
    (applyAll ts s).Good ∧ (applyAll ts s).params = s.params ∧ (applyAll ts s).mem.size = s.mem.size := by
  induction ts generalizing s with
  | nil => exact ⟨hgood, rfl, rfl⟩
  | cons tx ts ih =>
    obtain ⟨hfirst, hparams, hsize⟩ := everyTransactionKeepsGood s tx hgood
    obtain ⟨hrest, hparams', hsize'⟩ := ih hfirst
    exact ⟨hrest, hparams'.trans hparams, hsize'.trans hsize⟩

/-- Settles O28: a constructed machine is good, and every transaction keeps it so. -/
theorem transactionsKeepGood : Obligations.TransactionsKeepGood := fun _ image ts hinj =>
  applyAll_keeps_good ts ⟨Memory.ofImage_wf image, hinj, rfl⟩

/-- Settles O2: the reset memory lists no cell, and the default opcode bytes are six different ones. -/
theorem resetIsGood : Obligations.ResetIsGood := by
  have hopcodes : defaultOpcodes.Injective := by decide
  exact ⟨Memory.new_wf defaultMemSize, hopcodes, rfl⟩

end Sys2Proof.Machine

/-! ### Decoding and encoding (30_encoding.md sections 2 to 4) -/

namespace Sys2Proof

/-- Two fetches one after the other: the shape the operand fetches of every opcode have (30_encoding.md R87). -/
theorem fetchBoth_eq_ok {σ ε α β γ : Type} {f : σ → Except ε (α × σ)} {g : σ → Except ε (β × σ)} {mk : α → β → γ}
    {c c₂ : σ} {i : γ} :
    (f c >>= fun x => g x.2 >>= fun y => pure (mk x.1 y.1, y.2)) = .ok (i, c₂) ↔
      ∃ a c₁ b, f c = .ok (a, c₁) ∧ g c₁ = .ok (b, c₂) ∧ i = mk a b := by
  constructor
  · intro h
    cases hf : f c with
    | error e => rw [hf] at h; cases h
    | ok x =>
      obtain ⟨a, c₁⟩ := x
      rw [hf] at h
      cases hg : g c₁ with
      | error e => simp only [bind, Except.bind, hg] at h; cases h
      | ok y =>
        obtain ⟨b, c₂⟩ := y
        simp only [bind, Except.bind, hg, pure, Except.pure, Except.ok.injEq, Prod.mk.injEq] at h
        obtain ⟨rfl, rfl⟩ := h
        exact ⟨a, c₁, b, rfl, hg, rfl⟩
  · rintro ⟨a, c₁, b, hf, hg, rfl⟩
    simp only [bind, Except.bind, hf, hg, pure, Except.pure]

/-! #### Decoding what was encoded -/

/-- FetchWide of an encoded word gives it back (30_encoding.md R82). -/
theorem fetchWide_encodeWide (v : Word) (rest : List Byte) :
    fetchWide nextByte (encodeWide v ++ rest) = .ok (v, rest) := by
  have hfetch : fetchWide nextByte (encodeWide v ++ rest) = .ok (joinBytes (highByte v) (lowByte v), rest) :=
    fetchWide_of_ok rfl rfl
  rw [hfetch, joinBytes_high_low]

/-- FetchRegIndex of a canonical register byte gives the register back (30_encoding.md R93). -/
theorem fetchReg_toByte (r : Reg) (rest : List Byte) : fetchReg nextByte (r.toByte :: rest) = .ok (r, rest) := by
  have hfetch : fetchReg nextByte (r.toByte :: rest) = .ok (Reg.ofByte r.toByte, rest) := fetchReg_of_ok rfl
  rw [hfetch, Reg.ofByte_toByte]

/-- Reading an ADD_REG_REG operand byte back, in the mode it was formed for (41_arithmetic.md R140). -/
theorem AddOperand.ofByte_toByte {mode : AddOperandDecode} {a : AddOperand} (h : a.wellFormed mode = true) :
    AddOperand.ofByte mode a.toByte = a := by
  cases a with
  | reg r =>
    obtain rfl : mode = .reduced := of_decide_eq_true h
    exact congrArg AddOperand.reg (Reg.ofByte_toByte r)
  | offset o =>
    obtain rfl : mode = .rawOffset := of_decide_eq_true h
    rfl

/-- The fetch of a well-formed ADD_REG_REG operand's byte gives the operand back (41_arithmetic.md R140). -/
theorem fetchAddOperand_toByte {mode : AddOperandDecode} {a : AddOperand} (h : a.wellFormed mode = true)
    (rest : List Byte) : fetchAddOperand nextByte mode (a.toByte :: rest) = .ok (a, rest) := by
  have hfetch : fetchAddOperand nextByte mode (a.toByte :: rest) = .ok (AddOperand.ofByte mode a.toByte, rest) := rfl
  rw [hfetch, AddOperand.ofByte_toByte h]

/-- The operand bytes of a well-formed instruction decode to it (30_encoding.md R87). -/
theorem decodeOperands_encodeOperands {p : Params} {i : Instr} (hwf : i.wellFormed p = true) (rest : List Byte) :
    decodeOperands nextByte p i.opcode (encodeOperands i ++ rest) = .ok (i, rest) := by
  cases i with
  | movLitReg lit d =>
    exact fetchBoth_eq_ok.2 ⟨lit, _, d, fetchWide_encodeWide lit _, fetchReg_toByte d rest, rfl⟩
  | movRegReg r d => exact fetchBoth_eq_ok.2 ⟨r, _, d, fetchReg_toByte r _, fetchReg_toByte d rest, rfl⟩
  | movRegMem r addr =>
    exact fetchBoth_eq_ok.2 ⟨r, _, addr, fetchReg_toByte r _, fetchWide_encodeWide addr rest, rfl⟩
  | movMemReg addr d =>
    exact fetchBoth_eq_ok.2 ⟨addr, _, d, fetchWide_encodeWide addr _, fetchReg_toByte d rest, rfl⟩
  | addRegReg a b =>
    obtain ⟨ha, hb⟩ : a.wellFormed p.addDecode = true ∧ b.wellFormed p.addDecode = true := Bool.and_eq_true_iff.1 hwf
    exact fetchBoth_eq_ok.2 ⟨a, _, b, fetchAddOperand_toByte ha _, fetchAddOperand_toByte hb rest, rfl⟩
  | jmpNeq cmp target =>
    exact fetchBoth_eq_ok.2 ⟨cmp, _, target, fetchWide_encodeWide cmp _, fetchWide_encodeWide target rest, rfl⟩

/-- An encoding decodes to its instruction wherever the opcode byte does to the opcode, injective map or not. -/
theorem decode_encode {p : Params} {i : Instr}
    (hop : decodeOpcode p.opcodes (p.opcodes.byte i.opcode) = some i.opcode) (hwf : i.wellFormed p = true)
    (rest : List Byte) : decode p (encode p i ++ rest) = .ok (i, rest) := by
  have hcons : encode p i ++ rest = p.opcodes.byte i.opcode :: (encodeOperands i ++ rest) := rfl
  simp only [hcons, decode, hop, decodeOperands_encodeOperands hwf]

/-- Settles O50: the opcode byte of an injective map decodes to its opcode, and the operand bytes to the operands. -/
theorem decodeEncodeAgree : Obligations.DecodeEncodeAgree :=
  fun _ i rest hinj hwf => decode_encode (decodeOpcode_byte hinj i.opcode) hwf rest

/-! #### Encoding what was decoded -/

/-- What a list of bytes decodes to: its opcode byte stands for the instruction's opcode, and the bytes after that are
the operand bytes. -/
theorem decode_ok_cases {p : Params} {bytes rest : List Byte} {i : Instr} (h : decode p bytes = .ok (i, rest)) :
    ∃ tail, bytes = p.opcodes.byte i.opcode :: tail ∧
      decodeOpcode p.opcodes (p.opcodes.byte i.opcode) = some i.opcode ∧
      decodeOperands nextByte p i.opcode tail = .ok (i, rest) := by
  cases bytes with
  | nil => cases h
  | cons b tail =>
    cases hop : decodeOpcode p.opcodes b with
    | none => simp only [decode, hop] at h; cases h
    | some op =>
      simp only [decode, hop] at h
      obtain rfl : i.opcode = op := opcode_of_decodeOperands h
      obtain rfl : b = p.opcodes.byte i.opcode := byte_of_decodeOpcode hop
      exact ⟨tail, rfl, hop, h⟩

/-- What re-encoding does to a byte: nothing, or it makes a register byte canonical (30_encoding.md R93). -/
def ReencodesTo (b b' : Byte) : Prop := b' = b ∨ b'.toNat = b.toNat % 10

/-- A byte source read with `parse` takes bytes that re-encode to what `enc` writes for the value parsed. -/
def Reencodes {α : Type} (parse : List Byte → Except DecodeError (α × List Byte)) (enc : α → List Byte) : Prop :=
  ∀ ⦃bytes a rest⦄, parse bytes = .ok (a, rest) → ∃ used, bytes = used ++ rest ∧ List.Forall₂ ReencodesTo used (enc a)

/-- The canonical byte of the register a byte names is the byte modulo 10 (30_encoding.md R83, R93). -/
theorem reencodesTo_ofByte (b : Byte) : ReencodesTo b (Reg.ofByte b).toByte := by
  have hindex : (Reg.ofByte b).index = b.toNat % 10 := Reg.index_ofByte b
  have hlt : b.toNat % 10 < 2 ^ 8 := by omega
  exact .inr (by rw [Reg.toByte, BitVec.toNat_ofNat, hindex, Nat.mod_eq_of_lt hlt])

/-- A word re-encodes to the two bytes it was read from (30_encoding.md R82). -/
theorem reencodes_fetchWide : Reencodes (fetchWide nextByte) encodeWide := by
  intro bytes v rest h
  match bytes with
  | [] => cases h
  | [_] => cases h
  | lo :: hi :: tail =>
    have hfetch : fetchWide nextByte (lo :: hi :: tail) = .ok (joinBytes hi lo, tail) := fetchWide_of_ok rfl rfl
    obtain ⟨rfl, rfl⟩ : joinBytes hi lo = v ∧ tail = rest := by simpa [hfetch] using h
    have hlo : lowByte (joinBytes hi lo) = lo := lowByte_joinBytes hi lo
    have hhi : highByte (joinBytes hi lo) = hi := highByte_joinBytes hi lo
    exact ⟨[lo, hi], rfl, .cons (.inl hlo) (.cons (.inl hhi) .nil)⟩

/-- A register re-encodes to its canonical byte (30_encoding.md R93). -/
theorem reencodes_fetchReg : Reencodes (fetchReg nextByte) fun r => [r.toByte] := by
  intro bytes r rest h
  cases bytes with
  | nil => cases h
  | cons b tail =>
    cases h
    exact ⟨[b], rfl, .cons (reencodesTo_ofByte b) .nil⟩

/-- An ADD_REG_REG operand re-encodes to a canonical register byte or to its own offset byte (41_arithmetic.md R140). -/
theorem reencodes_fetchAddOperand (mode : AddOperandDecode) :
    Reencodes (fetchAddOperand nextByte mode) fun a => [a.toByte] := by
  intro bytes a rest h
  cases bytes with
  | nil => cases h
  | cons b tail =>
    cases h
    cases mode with
    | reduced => exact ⟨[b], rfl, .cons (reencodesTo_ofByte b) .nil⟩
    | rawOffset => exact ⟨[b], rfl, .cons (.inl rfl) .nil⟩

/-- Two fetches that each re-encode do so together. -/
theorem Reencodes.both {α β : Type} {f : List Byte → Except DecodeError (α × List Byte)}
    {g : List Byte → Except DecodeError (β × List Byte)} {ea : α → List Byte} {eb : β → List Byte}
    {mk : α → β → Instr} (hf : Reencodes f ea) (hg : Reencodes g eb)
    (henc : ∀ a b, encodeOperands (mk a b) = ea a ++ eb b) :
    Reencodes (fun bytes => f bytes >>= fun x => g x.2 >>= fun y => pure (mk x.1 y.1, y.2)) encodeOperands := by
  intro bytes i rest h
  obtain ⟨a, mid, b, ha, hb, rfl⟩ := fetchBoth_eq_ok.1 h
  obtain ⟨usedA, rfl, hA⟩ := hf ha
  obtain ⟨usedB, rfl, hB⟩ := hg hb
  exact ⟨usedA ++ usedB, (List.append_assoc ..).symm, henc a b ▸ List.rel_append hA hB⟩

/-- The operand bytes of every opcode re-encode (30_encoding.md R87). -/
theorem reencodes_decodeOperands (p : Params) (op : Opcode) :
    Reencodes (decodeOperands nextByte p op) encodeOperands := by
  cases op with
  | movLitReg => exact reencodes_fetchWide.both reencodes_fetchReg (mk := .movLitReg) fun _ _ => rfl
  | movRegReg => exact reencodes_fetchReg.both reencodes_fetchReg (mk := .movRegReg) fun _ _ => rfl
  | movRegMem => exact reencodes_fetchReg.both reencodes_fetchWide (mk := .movRegMem) fun _ _ => rfl
  | movMemReg => exact reencodes_fetchWide.both reencodes_fetchReg (mk := .movMemReg) fun _ _ => rfl
  | addRegReg =>
    exact (reencodes_fetchAddOperand _).both (reencodes_fetchAddOperand _) (mk := .addRegReg) fun _ _ => rfl
  | jmpNeq => exact reencodes_fetchWide.both reencodes_fetchWide (mk := .jmpNeq) fun _ _ => rfl

/-- An encoding has the length of its instruction (30_encoding.md R87). -/
theorem length_encode (p : Params) (i : Instr) : (encode p i).length = i.length := by
  cases i <;> rfl

/-- Settles O51: the opcode byte re-encodes to itself, and the operand bytes to canonical ones. -/
theorem decodedBytesReencode : Obligations.DecodedBytesReencode := by
  intro p bytes rest i h
  obtain ⟨tail, rfl, hop, hops⟩ := decode_ok_cases h
  obtain ⟨used, rfl, hused⟩ := reencodes_decodeOperands p i.opcode hops
  have hwf : i.wellFormed p = true := wellFormed_of_decodeOperands hops
  have hbytes : List.Forall₂ ReencodesTo (p.opcodes.byte i.opcode :: used) (encode p i) := .cons (.inl rfl) hused
  refine ⟨hwf, decode_encode hop hwf rest, p.opcodes.byte i.opcode :: used, rfl,
    hbytes.length_eq.trans (length_encode p i), fun k b hb => ?bytewise⟩
  case bytewise =>
    obtain ⟨hk, rfl⟩ := List.getElem?_eq_some_iff.1 hb
    have hk' : k < (encode p i).length := hbytes.length_eq ▸ hk
    exact ⟨(encode p i)[k], List.getElem?_eq_getElem hk', hbytes.get hk hk'⟩

/-- Settles O49: each word is decoded once by the model itself. -/
theorem sampleWordsDecode : Obligations.SampleWordsDecode :=
  ⟨rfl, rfl, rfl, rfl⟩

end Sys2Proof

/-! ### Where each instruction completes (40_data_movement.md, 41_arithmetic.md, 42_control_transfer.md) -/

namespace Sys2Proof.Machine

/-- An instruction that commits a register write: its result and its frame (30_encoding.md R100). -/
theorem completes_of_commit_register {i : Instr} {s : State} {cur v : Word} {d : Reg}
    (h : exec i s = .next (s.commit cur (.register d v))) :
    ∃ t, exec i s = .next t ∧
      (∀ r, t.readReg r = if r = d then v else if r = .ip then cur else s.readReg r) ∧
      (∀ x, t.mem.read1 x = s.mem.read1 x) ∧ t.params = s.params ∧ t.loop = .idle :=
  ⟨_, h, fun r => s.commit_register_readReg cur d r v, fun _ => rfl, s.commit_params .., s.commit_loop ..⟩

/-- Settles O4: the literal is committed to the destination. -/
theorem movLitRegCompletes : Obligations.MovLitRegCompletes :=
  fun lit d s => completes_of_commit_register (exec_movLitReg lit d s)

/-- Settles O5: the source, read at the following address, is committed to the destination. -/
theorem movRegRegCompletes : Obligations.MovRegRegCompletes :=
  fun src d s => completes_of_commit_register (exec_movRegReg src d s)

/-- Settles O32: the value written is the one the register, or the commit of `ip`, already gives. -/
theorem movRegRegToItselfIsNoOp : Obligations.MovRegRegToItselfIsNoOp := by
  intro r s
  refine ⟨_, exec_movRegReg r r s, fun r' => ?regs, rfl⟩
  case regs =>
    rw [State.commit_register_readReg]
    by_cases hr : r' = r
    · rw [if_pos hr, hr]
    · rw [if_neg hr]

/-- Settles O6: the instruction completes, and fails, as its 2-byte write does. -/
theorem movRegMemCompletes : Obligations.MovRegMemCompletes := by
  intro src addr s
  refine ⟨fun hin => ?stored, fun hlast => ?secondMissing, fun hout => ?firstMissing⟩
  case stored =>
    obtain ⟨m, hw⟩ := Memory.exists_write2_of_lt hin (if src = .ip then s.ip + 4 else s.readReg src)
    exact ⟨_, exec_movRegMem_of_ok hw, fun r => s.commit_memory_readReg _ r m, (Memory.write2_spec hw).2,
      s.commit_params .., s.commit_loop ..⟩
  case secondMissing => exact exec_movRegMem_of_error fun v => Memory.write2_eq_error.2 (.inl ⟨hlast, rfl⟩)
  case firstMissing => exact exec_movRegMem_of_error fun v => Memory.write2_eq_error.2 (.inr ⟨hout, rfl⟩)

/-- Settles O7: the instruction completes, and fails, as its 2-byte read does. -/
theorem movMemRegCompletes : Obligations.MovMemRegCompletes := by
  intro addr d s
  refine ⟨fun lo hi hlo hhi => ?loaded, fun hlast => ?secondMissing, fun hout => ?firstMissing⟩
  case loaded =>
    rw [wordOf_eq]
    exact completes_of_commit_register (exec_movMemReg_of_ok (Memory.read2_of_read1 hlo hhi))
  case secondMissing => exact exec_movMemReg_of_error (Memory.read2_eq_error.2 (.inl ⟨hlast, rfl⟩))
  case firstMissing => exact exec_movMemReg_of_error (Memory.read2_eq_error.2 (.inr ⟨hout, rfl⟩))

/-- An ADD_REG_REG whose sources are both read: its sum modulo `0x10000` and its frame (41_arithmetic.md R140). -/
theorem exec_addRegReg_frame {s : State} {p q : AddOperand} {u w : Word}
    (hp : s.addSource (s.ip + 3) p = .ok u) (hq : s.addSource (s.ip + 3) q = .ok w) :
    ∃ t, exec (.addRegReg p q) s = .next t ∧ (t.readReg .acc).toNat = (u.toNat + w.toNat) % 0x10000 ∧
      (∀ r, r ≠ .acc → t.readReg r = if r = .ip then s.ip + 3 else s.readReg r) ∧
      (∀ x, t.mem.read1 x = s.mem.read1 x) ∧ t.params = s.params ∧ t.loop = .idle := by
  obtain ⟨t, hexec, hregs, hframe⟩ := completes_of_commit_register (exec_addRegReg_of_ok hp hq)
  refine ⟨t, hexec, ?sum, fun r hr => ?others, hframe⟩
  case sum => rw [hregs, if_pos rfl, BitVec.toNat_add]
  case others => rw [hregs, if_neg hr]

/-- Settles O8: register sources are always read. -/
theorem addRegRegOfRegistersCompletes : Obligations.AddRegRegOfRegistersCompletes :=
  fun _ _ s => exec_addRegReg_frame (s.addSource_reg ..) (s.addSource_reg ..)

/-- Settles O9: offsets are read up to 18, the first operand's before the second's. -/
theorem addRegRegOfOffsetsCompletes : Obligations.AddRegRegOfOffsetsCompletes := by
  intro p q s
  refine ⟨fun hp hq => ?sum, fun hp => ?firstFails, fun hp hq => ?secondFails⟩
  case sum => exact exec_addRegReg_frame (s.addSource_offset _ hp) (s.addSource_offset _ hq)
  case firstFails => exact exec_addRegReg_of_first_error (s.addSource_offset_of_ge _ hp)
  case secondFails =>
    exact exec_addRegReg_of_second_error (s.addSource_offset _ hp) (s.addSource_offset_of_ge _ hq)

/-- Settles O10, from the frame of a JMP_NEQ in both of its branches. -/
theorem jmpNeqCompletes : Obligations.JmpNeqCompletes :=
  exec_jmpNeq_frame

end Sys2Proof.Machine

/-! ### What an instruction changes (10_state.md section 3, 30_encoding.md section 6) -/

namespace Sys2Proof.Machine

/-- Settles O29: memory can differ only by the write of a MOV_REG_MEM, whose commit writes no register but `ip`. -/
theorem onlyMovRegMemChangesMemory : Obligations.OnlyMovRegMemChangesMemory := by
  intro i s t x hexec hchanged
  obtain hmem | ⟨r, addr, rfl, hw⟩ := exec_next_mem hexec
  case inl => exact absurd (congrArg (Memory.read1 · x) hmem) hchanged
  case inr =>
    refine ⟨r, addr, rfl, ?cell, fun r' hr' => ?others⟩
    case cell =>
      by_contra hcell
      obtain ⟨hfirst, hsecond⟩ := not_or.1 hcell
      exact hchanged (by rw [(Memory.write2_spec hw).2, if_neg hfirst, if_neg hsecond])
    case others =>
      have hcommit : t = s.commit (s.ip + 4) (.memory t.mem) :=
        Host.Outcome.next.inj (hexec.symm.trans (exec_movRegMem_of_ok hw))
      rw [hcommit, State.commit_memory_readReg, if_neg hr']

/-- A register, not `ip`, that a commit of a register write changes is the one written (30_encoding.md R100). -/
theorem State.eq_of_commit_register_ne {s : State} {cur v : Word} {d r : Reg} (hip : r ≠ .ip)
    (h : (s.commit cur (.register d v)).readReg r ≠ s.readReg r) : r = d := by
  by_contra hd
  exact h (by rw [State.commit_register_readReg, if_neg hd, if_neg hip])

/-- Settles O30: the only registers a commit writes are `ip` and the one its effect names. -/
theorem onlyDestinationsChange : Obligations.OnlyDestinationsChange := by
  intro i s t r hexec hip hchanged
  obtain ⟨lit, d, rfl, rfl⟩ | ⟨src, d, rfl, rfl⟩ | ⟨src, addr, m, -, -, rfl⟩ | ⟨addr, d, v, rfl, -, rfl⟩ |
    ⟨p, q, u, w, rfl, -, -, rfl⟩ | ⟨cmp, target, -, rfl⟩ := exec_next_cases hexec
  case inl =>
    obtain rfl := State.eq_of_commit_register_ne hip hchanged
    exact .inl ⟨lit, rfl⟩
  case inr.inl =>
    obtain rfl := State.eq_of_commit_register_ne hip hchanged
    exact .inr (.inl ⟨src, rfl⟩)
  case inr.inr.inl => exact absurd (by rw [State.commit_memory_readReg, if_neg hip]) hchanged
  case inr.inr.inr.inl =>
    obtain rfl := State.eq_of_commit_register_ne hip hchanged
    exact .inr (.inr (.inl ⟨addr, rfl⟩))
  case inr.inr.inr.inr.inl => exact .inr (.inr (.inr ⟨p, q, rfl, State.eq_of_commit_register_ne hip hchanged⟩))
  case inr.inr.inr.inr.inr =>
    split at hchanged
    · exact absurd (by rw [State.commit_nothing_readReg, if_neg hip]) hchanged
    · exact absurd (State.eq_of_commit_register_ne hip hchanged) hip

/-- A 2-byte read reads the low byte of its value at its address and the high byte in the next cell (20_memory.md
R55). -/
theorem Memory.read1_of_read2 {m : Memory} {i : Nat} {v : Word} (h : m.read2 i = .ok v) :
    m.read1 i = .ok (lowByte v) ∧ m.read1 (i + 1) = .ok (highByte v) := by
  rw [Memory.read2_eq] at h
  split_ifs at h with hin
  obtain rfl := Except.ok.inj h
  rw [lowByte_joinBytes, highByte_joinBytes]
  exact ⟨Memory.read1_eq_ok.2 ⟨by omega, rfl⟩, Memory.read1_eq_ok.2 ⟨hin, rfl⟩⟩

/-- Settles O31: `ip` is the following address unless the commit's effect writes `ip`. -/
theorem ipAfterSuccess : Obligations.IpAfterSuccess := by
  intro i s t hexec
  obtain ⟨lit, d, rfl, rfl⟩ | ⟨src, d, rfl, rfl⟩ | ⟨src, addr, m, rfl, -, rfl⟩ | ⟨addr, d, v, rfl, hv, rfl⟩ |
    ⟨p, q, u, w, rfl, -, -, rfl⟩ | ⟨cmp, target, rfl, rfl⟩ := exec_next_cases hexec
  case inl => exact s.commit_register_ip ..
  case inr.inl =>
    simp only [State.commit_register_ip, State.source_eq]
    by_cases hsrc : src = .ip
    · simp only [hsrc, if_true, ite_self, ne_eq, not_true_eq_false, and_false, if_false]
      rfl
    · simp only [hsrc, if_false, ne_eq, not_false_eq_true, and_true]
      rfl
  case inr.inr.inl => exact s.commit_memory_ip ..
  case inr.inr.inr.inl =>
    simp only [State.commit_register_ip]
    by_cases hd : d = .ip
    · simp only [hd, if_true]
      exact Memory.read1_of_read2 hv
    · simp only [hd, if_false]
      rfl
  case inr.inr.inr.inr.inl => exact s.commit_register_ip ..
  case inr.inr.inr.inr.inr =>
    by_cases hcmp : cmp = s.readReg .acc
    · simp only [hcmp, if_true, State.commit_nothing_ip]
      rfl
    · simp only [hcmp, if_false, State.commit_register_ip, if_true]

end Sys2Proof.Machine

/-! ### What a step runs and how it fails (30_encoding.md section 6, 60_exceptions.md, 70_reset_and_hazards.md) -/

namespace Sys2Proof.Machine

theorem Holds.read1_head {m : Memory} {c : Word} {b : Byte} {bytes : List Byte} (h : Holds m c (b :: bytes)) :
    m.read1 c.toNat = .ok b := by
  have hfirst := h 0 (Nat.zero_lt_succ _)
  rwa [advance_zero] at hfirst

/-- Settles O11: the bytes at `ip` are an opcode byte and operand bytes, which the step fetches as the list gives them. -/
theorem stepRunsDecodedInstruction : Obligations.StepRunsDecodedInstruction := by
  intro s bytes i hidle hbytes hdecode
  obtain ⟨tail, rfl, hop, hops⟩ := decode_ok_cases hdecode
  have hholds : Holds s.mem s.ip (s.params.opcodes.byte i.opcode :: tail) := hbytes
  obtain ⟨cur, hfetch⟩ := fetchInstr_of_holds hholds.read1_head hop hholds.tail hops
  exact (step_of_fetchInstr hidle hfetch).trans (exec_leaveIdle i s).symm

/-- Settles O12: an encoding decodes to its instruction. -/
theorem stepRunsEncodedInstruction : Obligations.StepRunsEncodedInstruction := by
  intro s i hidle hinj hwf hbytes
  have hdecode : decode s.params (encode s.params i) = .ok (i, []) := by
    simpa using decodeEncodeAgree s.params i [] hinj hwf
  exact (stepRunsDecodedInstruction s _ i hidle hbytes hdecode).trans (exec_leaveIdle i s)

/-- Every instruction has a meaning (30_encoding.md R101). -/
theorem exec_ne_refused (i : Instr) (s : State) (r : Refusal) : exec i s ≠ .refused r := by
  cases i with
  | movLitReg lit d => exact nofun
  | movRegReg src d => exact nofun
  | movRegMem src addr =>
    simp only [exec, execMovRegMem]
    split <;> exact nofun
  | movMemReg addr d =>
    simp only [exec, execMovMemReg]
    split <;> exact nofun
  | addRegReg p q =>
    simp only [exec, execAddRegReg]
    split
    · exact nofun
    · split <;> exact nofun
  | jmpNeq cmp target =>
    obtain ⟨t, hexec, -⟩ := exec_jmpNeq_frame cmp target s
    rw [hexec]
    exact nofun

/-- Settles O22: an accepted step ends as its fetch fails or as its instruction ends. -/
theorem acceptedStepIsNeverRefused : Obligations.AcceptedStepIsNeverRefused := by
  intro s r hidle
  cases hfetch : fetchInstr s with
  | error f =>
    rw [step_of_fetchInstr_error hidle hfetch]
    exact nofun
  | ok fetched =>
    rw [step_of_fetchInstr hidle hfetch]
    exact exec_ne_refused fetched.1 s r

/-- A well-formed ADD_REG_REG with one offset operand has two, and the mode is the raw one (41_arithmetic.md R140). -/
theorem offsets_of_wellFormed {p : Params} {a b : AddOperand} (hwf : (Instr.addRegReg a b).wellFormed p = true)
    (hoffset : ∃ o : Byte, a = .offset o ∨ b = .offset o) :
    p.addDecode = .rawOffset ∧ ∃ o o' : Byte, a = .offset o ∧ b = .offset o' := by
  obtain ⟨ha, hb⟩ : a.wellFormed p.addDecode = true ∧ b.wellFormed p.addDecode = true := Bool.and_eq_true_iff.1 hwf
  have hmode : p.addDecode = .rawOffset := by
    obtain ⟨o, rfl | rfl⟩ := hoffset
    · exact of_decide_eq_true ha
    · exact of_decide_eq_true hb
  rw [hmode] at ha hb
  cases a with
  | reg r => cases ha
  | offset o =>
    cases b with
    | reg r => cases hb
    | offset o' => exact ⟨hmode, o, o', rfl, rfl⟩

/-- An ADD_REG_REG of two raw offsets fails only at its first offset of 19 or more (41_arithmetic.md R140). -/
theorem exec_addRegReg_offsets_fault {p q : Byte} {s : State} {f : Fault}
    (h : exec (.addRegReg (.offset p) (.offset q)) s = .fault f) :
    19 ≤ p.toNat ∧ f = .executionFailure .regOffset p.toNat ∨
      p.toNat ≤ 18 ∧ 19 ≤ q.toNat ∧ f = .executionFailure .regOffset q.toNat := by
  obtain ⟨hcompletes, hfirst, hsecond⟩ := addRegRegOfOffsetsCompletes p q s
  rcases Nat.lt_or_ge 18 p.toNat with hp | hp
  · exact .inl ⟨hp, Host.Outcome.fault.inj (h.symm.trans (hfirst hp))⟩
  rcases Nat.lt_or_ge 18 q.toNat with hq | hq
  · exact .inr ⟨hp, hq, Host.Outcome.fault.inj (h.symm.trans (hsecond hp hq))⟩
  · obtain ⟨t, hexec, -⟩ := hcompletes hp hq
    cases h.symm.trans hexec

/-- Settles O21: the failures of the fetch, then those of the instruction fetched. -/
theorem stepFailuresAreTheListedKinds : Obligations.StepFailuresAreTheListedKinds := by
  intro s f hstep
  obtain ⟨-, hfetch | ⟨i, cur, hfetch, hexec⟩⟩ := step_fault_cases hstep
  case inl =>
    obtain ⟨hout, rfl⟩ | ⟨b, hread, hop, rfl⟩ | ⟨b, op, n, hread, hop, hpos, hlen, hbefore, hmiss, rfl⟩ :=
      fetchInstr_error_cases hfetch
    case inl => exact .inl ⟨rfl, hout⟩
    case inr.inl => exact .inr (.inl ⟨b, hread, decodeOpcode_eq_none.1 hop, rfl⟩)
    case inr.inr => exact .inr (.inr (.inl ⟨b, op, n, hread, hop, ⟨hpos, hlen, hbefore, hmiss⟩, rfl⟩))
  case inr =>
    refine .inr (.inr (.inr ⟨i, cur, hfetch, ?_⟩))
    obtain ⟨src, addr, j, rfl, hw, rfl⟩ | ⟨addr, d, j, rfl, hv, rfl⟩ | ⟨p, q, o, rfl, hoperand, -⟩ :=
      exec_fault_cases hexec
    case inl =>
      refine .inr (.inl ⟨src, addr, rfl, ?_⟩)
      obtain ⟨hsize, rfl⟩ | ⟨hsize, rfl⟩ := Memory.write2_eq_error.1 hw
      · exact .inr ⟨hsize, rfl⟩
      · exact .inl ⟨hsize, rfl⟩
    case inr.inl =>
      refine .inl ⟨addr, d, rfl, ?_⟩
      obtain ⟨hsize, rfl⟩ | ⟨hsize, rfl⟩ := Memory.read2_eq_error.1 hv
      · exact .inr ⟨hsize, rfl⟩
      · exact .inl ⟨hsize, rfl⟩
    case inr.inr =>
      obtain ⟨-, -, -, hwf⟩ := fetchInstr_ok_cases hfetch
      have hoffset : ∃ b : Byte, p = .offset b ∨ q = .offset b := by
        obtain hp | hq := hoperand
        · obtain ⟨b, hb, -⟩ := State.addSource_error hp
          exact ⟨b, .inl hb⟩
        · obtain ⟨b, hb, -⟩ := State.addSource_error hq
          exact ⟨b, .inr hb⟩
      obtain ⟨hmode, p, q, rfl, rfl⟩ := offsets_of_wellFormed hwf hoffset
      exact .inr (.inr ⟨p, q, rfl, hmode, exec_addRegReg_offsets_fault hexec⟩)

/-- STEP answers the failure of the step and hands back the state it was given (60_exceptions.md R165). -/
theorem stepPort_of_fault {s : State} {f : Fault} (h : step s = .fault f) : stepPort s = ⟨.failed f, s⟩ := by
  simp only [stepPort, h]

/-- Settles O24: the state after the failure, and after any reading of it, is the state before. -/
theorem failedStepRepeats : Obligations.FailedStepRepeats := by
  intro s f sel hfailed
  obtain ⟨-, hport⟩ := stepPort_failed hfailed
  have hstate : (stepPort s).state = s := congrArg Reply.state hport
  rw [hstate, regRead_state, dump_state]
  exact ⟨rfl, rfl, rfl⟩

/-- Settles O25: a step that commits ends in `Idle`, so the next one is accepted and fails in its opcode fetch. -/
theorem outOfRangeTargetFailsAtNextStep : Obligations.OutOfRangeTargetFailsAtNextStep := by
  intro s t hstep hout
  obtain ⟨-, i, cur, -, hexec⟩ := step_next_cases hstep
  obtain ⟨-, hidle⟩ := exec_next_params_loop hexec
  exact stepPort_of_fault (opcodeFetchOutOfRangeFails t hidle hout)

/-- Settles O3: `ip` is 0, where an empty memory has no cell and any other holds `0x00`. -/
theorem zeroMemoryFirstStepFails : Obligations.ZeroMemoryFirstStepFails := by
  intro p n hopcode
  have hip : (construct p (List.replicate n 0x00)).ip = 0 := RegStorage.read_zero .ip
  refine stepPort_of_fault ?_
  rcases Nat.eq_zero_or_pos n with rfl | hn
  · have hout : (construct p (List.replicate 0 0x00)).mem.size ≤ (construct p (List.replicate 0 0x00)).ip.toNat :=
      Nat.zero_le _
    rw [opcodeFetchOutOfRangeFails _ rfl hout, hip]
    rfl
  · have hread : (construct p (List.replicate n 0x00)).mem.read1 (construct p (List.replicate n 0x00)).ip.toNat =
        .ok 0x00 := by
      rw [hip]
      exact (Memory.read1_ofImage _ _).trans (by simp [hn])
    rw [step_of_fetchInstr_error rfl (fetchInstr_of_not_mem hread hopcode), hip, if_neg hn.ne']

/-- Settles O26: the table row by row. -/
theorem resultRecordsHaveTheListedCodes : Obligations.ResultRecordsHaveTheListedCodes :=
  ⟨rfl, fun _ => rfl, fun _ => rfl, fun _ => rfl, fun _ => rfl, fun _ => rfl, fun _ => rfl, fun _ => rfl,
    fun _ _ => rfl, rfl, rfl, rfl, rfl⟩

end Sys2Proof.Machine

/-! ### The read primitives (10_state.md section 5, 20_memory.md sections 1 and 2) -/

namespace Sys2Proof.Machine

/-- The low byte of a register is the first byte of its slot (10_state.md R22). -/
theorem RegStorage.lowByte_read (rs : RegStorage) (r : Reg) :
    lowByte (rs.read r) = rs[2 * r.index]'(by have := r.index_lt; omega) :=
  lowByte_joinBytes _ _

/-- The high byte of a register is the second byte of its slot (10_state.md R22). -/
theorem RegStorage.highByte_read (rs : RegStorage) (r : Reg) :
    highByte (rs.read r) = rs[2 * r.index + 1]'(by have := r.index_lt; omega) :=
  highByte_joinBytes _ _

/-- Settles O37: at an even offset the two bytes are one register's slot, at an odd one they belong to two slots. -/
theorem offsetReadStraddles : Obligations.OffsetReadStraddles := by
  intro rs o
  refine ⟨fun lo hi hlo hhi => ?bytes, RegStorage.read16_of_ge, fun r => ?even, fun r r' hnext => ?odd⟩
  case bytes =>
    obtain ⟨_, rfl⟩ := Vector.getElem?_eq_some_iff.1 hlo
    obtain ⟨hin, rfl⟩ := Vector.getElem?_eq_some_iff.1 hhi
    rw [RegStorage.read16_of_le (by omega), wordOf_eq]
  case even =>
    have hindex : r.index < 10 := r.index_lt
    exact RegStorage.read16_of_le (by omega)
  case odd =>
    have hindex : r'.index < 10 := r'.index_lt
    have hslot : 2 * r'.index = 2 * r.index + 1 + 1 := by omega
    have hlow : (rs.read r').extractLsb' 0 8 = rs[2 * r.index + 1 + 1] :=
      (RegStorage.lowByte_read rs r').trans (by simp only [hslot])
    have hhigh : (rs.read r).extractLsb' 8 8 = rs[2 * r.index + 1] := RegStorage.highByte_read rs r
    rw [RegStorage.read16_of_le (by omega), wordOf_eq, hlow, hhigh]

/-- Settles O38: the 1-byte read looks its cell up in the list, the 2-byte read is two of them. -/
theorem memoryReadPrimitives : Obligations.MemoryReadPrimitives := by
  intro m i
  refine ⟨fun hin habsent => ?unlisted, fun b hwf hlisted => ?listed, fun hout => Memory.read1_eq_error.2 ⟨hout, rfl⟩,
    fun lo hi hlo hhi => ?both, fun hlast => Memory.read2_eq_error.2 (.inl ⟨hlast, rfl⟩),
    fun hout => Memory.read2_eq_error.2 (.inr ⟨hout, rfl⟩)⟩
  case unlisted => exact Memory.read1_eq_ok.2 ⟨hin, lookupCell_of_absent habsent⟩
  case listed =>
    obtain ⟨hrising, hcells⟩ := hwf
    obtain ⟨hin, -⟩ := hcells _ hlisted
    exact Memory.read1_eq_ok.2 ⟨hin, lookupCell_of_mem hrising hlisted⟩
  case both => rw [wordOf_eq, Memory.read2_of_read1 hlo hhi]

/-- Settles O40: every 2-byte read is two 1-byte reads, and those see the bytes written or the neighbours left alone. -/
theorem mixedWidthAccessesAgree : Obligations.MixedWidthAccessesAgree := by
  intro m m' i v hw
  obtain ⟨-, hcells⟩ := Memory.write2_spec hw
  have hlow : m'.read1 i = .ok (lowByte v) := by rw [hcells, if_pos rfl]
  have hhigh : m'.read1 (i + 1) = .ok (highByte v) := by rw [hcells, if_neg (by omega), if_pos rfl]
  refine ⟨hlow, hhigh, ?same, fun b hafter => ?above, fun j b hj hbefore => ?below⟩
  case same => rw [Memory.read2_of_read1 hlow hhigh, joinBytes_high_low]
  case above =>
    have hnext : m'.read1 (i + 1 + 1) = .ok b := by rw [hcells, if_neg (by omega), if_neg (by omega), hafter]
    rw [Memory.read2_of_read1 hhigh hnext, wordOf_eq]
    rfl
  case below =>
    obtain rfl := hj
    have hprev : m'.read1 j = .ok b := by rw [hcells, if_neg (by omega), if_neg (by omega), hbefore]
    rw [Memory.read2_of_read1 hprev hlow, wordOf_eq]
    rfl

end Sys2Proof.Machine

/-! ### Fetch coherence (20_memory.md section 5) -/

namespace Sys2Proof.Machine

/-- A fetch reads one cell, so two memories that agree there fetch alike (30_encoding.md R81). -/
theorem fetchByte_congr {m m' : Memory} {c : Word} (h : m.read1 c.toNat = m'.read1 c.toNat) :
    fetchByte m c = fetchByte m' c := by
  simp only [fetchByte, h]

/-- A MOV_REG_MEM that completes leaves the memory that the 2-byte write of its source does (40_data_movement.md
R124). -/
theorem exec_movRegMem_next {src : Reg} {addr : Word} {s t : State} (h : exec (.movRegMem src addr) s = .next t) :
    s.mem.write2 addr.toNat (if src = .ip then s.ip + 4 else s.readReg src) = .ok t.mem := by
  obtain ⟨_, _, hi, -⟩ | ⟨_, _, hi, -⟩ | ⟨_, _, m, hi, hw, rfl⟩ | ⟨_, _, _, hi, -⟩ | ⟨_, _, _, _, hi, -⟩ |
    ⟨_, _, hi, -⟩ := exec_next_cases h
  all_goals cases hi
  rwa [State.source_eq] at hw

/-- Settles O33: a fetch is a 1-byte read, and reading after either write is known at every cell. -/
theorem storedBytesAreFetched : Obligations.StoredBytesAreFetched := by
  refine ⟨fun src addr s t hexec => ?store, fun a b s hidle hin => ?load⟩
  case store =>
    obtain ⟨-, hcells⟩ := Memory.write2_spec (exec_movRegMem_next hexec)
    refine ⟨fetchByte_of_read1 ((hcells _).trans (if_pos rfl)), fun hlast => ?second, fun c hfirst hsecond => ?others⟩
    case second =>
      have hnext : (addr + 1).toNat = addr.toNat + 1 := by bv_omega
      have hcur : addr + 1 + 1 = addr + 2 := advance_advance addr 1 1
      rw [← hcur]
      refine fetchByte_of_read1 ?_
      rw [hnext, hcells, if_neg (by omega), if_pos rfl]
      rfl
    case others =>
      have hc : c.toNat ≠ addr.toNat := fun h => hfirst (BitVec.eq_of_toNat_eq h)
      have hc' : c.toNat ≠ addr.toNat + 1 := by bv_omega
      exact fetchByte_congr (by rw [hcells, if_neg hc, if_neg hc'])
  case load =>
    obtain ⟨m, hw⟩ := Memory.exists_write1_of_lt hin b
    obtain ⟨-, hcells⟩ := Memory.write1_spec hw
    rw [load_of_write1_ok hidle hw]
    refine ⟨fetchByte_of_read1 ((hcells _).trans (if_pos rfl)), fun c hc => fetchByte_congr ?_⟩
    exact (hcells _).trans (if_neg fun h => hc (BitVec.eq_of_toNat_eq h))

end Sys2Proof.Machine

/-! ### Cells out of reach (20_memory.md section 2) -/

namespace Sys2Proof.Machine

/-- Two memories of one length that hold the same in every cell a step can reach (20_memory.md R56). -/
structure Memory.AgreeInReach (m m' : Memory) : Prop where
  size_eq : m.size = m'.size
  read1_eq : ∀ x, x ≤ 0x10000 → m.read1 x = m'.read1 x

namespace Memory.AgreeInReach

variable {m m' : Memory}

/-- A fetch reaches no cell above `0xFFFF` (30_encoding.md R81). -/
theorem fetchByte_eq (h : m.AgreeInReach m') : fetchByte m = fetchByte m' :=
  funext fun c => fetchByte_congr (h.read1_eq _ c.isLt.le)

/-- A 2-byte read at a 16-bit address reaches at most cell `0x10000` (20_memory.md R56). -/
theorem read2_eq (h : m.AgreeInReach m') (a : Word) : m.read2 a.toNat = m'.read2 a.toNat := by
  have hlt : a.toNat < 0x10000 := a.isLt
  simp only [Memory.read2, h.read1_eq a.toNat (by omega), h.read1_eq (a.toNat + 1) (by omega)]

/-- A 2-byte write at a 16-bit address keeps the agreement (20_memory.md R54). -/
theorem write2_ok (h : m.AgreeInReach m') {i : Nat} {v : Word} {m₁ : Memory} (hw : m.write2 i v = .ok m₁) :
    ∃ m₁', m'.write2 i v = .ok m₁' ∧ m₁.AgreeInReach m₁' := by
  obtain ⟨hin, -⟩ := Memory.write2_eq_ok.1 hw
  obtain ⟨m₁', hw'⟩ := Memory.exists_write2_of_lt (h.size_eq ▸ hin) v
  obtain ⟨hsize, hcells⟩ := Memory.write2_spec hw
  obtain ⟨hsize', hcells'⟩ := Memory.write2_spec hw'
  exact ⟨m₁', hw', hsize.trans (h.size_eq.trans hsize'.symm), fun x hx => by rw [hcells, hcells', h.read1_eq x hx]⟩

end Memory.AgreeInReach

/-- A 2-byte write at a 16-bit address leaves every cell above `0x10000` (20_memory.md R56). -/
theorem Memory.write2_above_reach {m m' : Memory} {a v : Word} (hw : m.write2 a.toNat v = .ok m') {x : Nat}
    (hx : 0x10000 < x) : m'.read1 x = m.read1 x := by
  have hlt : a.toNat < 0x10000 := a.isLt
  rw [(Memory.write2_spec hw).2, if_neg (by omega), if_neg (by omega)]

section OtherMemory

variable {i : Instr} {s t : State} {m : Memory} {f : Fault} (hagree : s.mem.AgreeInReach m)

include hagree

/-- With another memory that agrees in reach, fetching an instruction answers the same (30_encoding.md section 1). -/
theorem fetchInstr_setMem : fetchInstr (s.setMem m) = fetchInstr s := by
  have hip : (s.setMem m).ip = s.ip := rfl
  simp only [fetchInstr, hip, State.setMem_mem, State.setMem_params, hagree.fetchByte_eq]

/-- With another memory that agrees in reach, an instruction fails the same. -/
theorem exec_setMem_fault (h : exec i s = .fault f) : exec i (s.setMem m) = .fault f := by
  cases i with
  | movLitReg lit d => cases h
  | movRegReg src d => cases h
  | movRegMem src addr =>
    obtain ⟨_, _, j, hi, hw, rfl⟩ | ⟨_, _, _, hi, -⟩ | ⟨_, _, _, hi, -⟩ := exec_fault_cases h
    all_goals cases hi
    have hout := Memory.write2_eq_error.1 hw
    rw [hagree.size_eq] at hout
    exact exec_movRegMem_of_error fun v => Memory.write2_eq_error.2 hout
  | movMemReg addr d =>
    obtain ⟨_, _, _, hi, -⟩ | ⟨_, _, j, hi, hv, rfl⟩ | ⟨_, _, _, hi, -⟩ := exec_fault_cases h
    all_goals cases hi
    exact exec_movMemReg_of_error (s := s.setMem m) (hagree.read2_eq addr ▸ hv)
  | addRegReg p q =>
    cases hp : s.addSource (s.ip + 3) p with
    | error o =>
      rw [← h, exec_addRegReg_of_first_error hp]
      exact exec_addRegReg_of_first_error (s := s.setMem m) hp
    | ok u =>
      cases hq : s.addSource (s.ip + 3) q with
      | error o =>
        rw [← h, exec_addRegReg_of_second_error hp hq]
        exact exec_addRegReg_of_second_error (s := s.setMem m) hp hq
      | ok w => cases (exec_addRegReg_of_ok hp hq).symm.trans h
  | jmpNeq cmp target =>
    obtain ⟨t, hexec, -⟩ := exec_jmpNeq_frame cmp target s
    cases hexec.symm.trans h

/-- With another memory that agrees in reach, an instruction completes the same but for its memory, which still agrees
in reach; neither memory has changed above it. -/
theorem exec_setMem_next (h : exec i s = .next t) :
    ∃ m', exec i (s.setMem m) = .next (t.setMem m') ∧ t.mem.AgreeInReach m' ∧
      ∀ x, 0x10000 < x → t.mem.read1 x = s.mem.read1 x ∧ m'.read1 x = m.read1 x := by
  obtain ⟨lit, d, rfl, rfl⟩ | ⟨src, d, rfl, rfl⟩ | ⟨src, addr, m₁, rfl, hw, rfl⟩ | ⟨addr, d, v, rfl, hv, rfl⟩ |
    ⟨p, q, u, w, rfl, hp, hq, rfl⟩ | ⟨cmp, target, rfl, rfl⟩ := exec_next_cases h
  case inl => exact ⟨m, rfl, hagree, fun _ _ => ⟨rfl, rfl⟩⟩
  case inr.inl => exact ⟨m, rfl, hagree, fun _ _ => ⟨rfl, rfl⟩⟩
  case inr.inr.inl =>
    obtain ⟨m', hw', hagree'⟩ := hagree.write2_ok hw
    rw [State.source_eq] at hw'
    exact ⟨m', exec_movRegMem_of_ok (s := s.setMem m) hw', hagree',
      fun _ hx => ⟨Memory.write2_above_reach hw hx, Memory.write2_above_reach hw' hx⟩⟩
  case inr.inr.inr.inl =>
    exact ⟨m, exec_movMemReg_of_ok (s := s.setMem m) (hagree.read2_eq addr ▸ hv), hagree, fun _ _ => ⟨rfl, rfl⟩⟩
  case inr.inr.inr.inr.inl =>
    rw [wrappingSum_eq]
    exact ⟨m, exec_addRegReg_of_ok (s := s.setMem m) hp hq, hagree, fun _ _ => ⟨rfl, rfl⟩⟩
  case inr.inr.inr.inr.inr =>
    by_cases hcmp : cmp = s.readReg .acc
    · rw [if_pos hcmp]
      exact ⟨m, exec_jmpNeq_of_eq (s := s.setMem m) hcmp, hagree, fun _ _ => ⟨rfl, rfl⟩⟩
    · rw [if_neg hcmp]
      exact ⟨m, exec_jmpNeq_of_ne (s := s.setMem m) hcmp, hagree, fun _ _ => ⟨rfl, rfl⟩⟩

/-- With another memory that agrees in reach, a step fails the same. -/
theorem step_setMem_fault (h : step s = .fault f) : step (s.setMem m) = .fault f := by
  obtain ⟨hidle, hfetch | ⟨i, cur, hfetch, hexec⟩⟩ := step_fault_cases h
  all_goals rw [← fetchInstr_setMem hagree] at hfetch
  case inl => exact step_of_fetchInstr_error (s := s.setMem m) hidle hfetch
  case inr => exact (step_of_fetchInstr (s := s.setMem m) hidle hfetch).trans (exec_setMem_fault hagree hexec)

/-- With another memory that agrees in reach, a step completes the same but for its memory. -/
theorem step_setMem_next (h : step s = .next t) :
    ∃ m', step (s.setMem m) = .next (t.setMem m') ∧ t.mem.AgreeInReach m' ∧
      ∀ x, 0x10000 < x → t.mem.read1 x = s.mem.read1 x ∧ m'.read1 x = m.read1 x := by
  obtain ⟨hidle, i, cur, hfetch, hexec⟩ := step_next_cases h
  rw [← fetchInstr_setMem hagree] at hfetch
  rw [step_of_fetchInstr (s := s.setMem m) hidle hfetch]
  exact exec_setMem_next hagree hexec

end OtherMemory

/-- Two states alike in everything but their memory are one state with two memories. -/
theorem State.eq_setMem {s s' : State} (hparams : s.params = s'.params) (hrs : s.rs = s'.rs)
    (hloop : s.loop = s'.loop) : s' = s.setMem s'.mem := by
  cases s
  cases s'
  cases hparams
  cases hrs
  cases hloop
  rfl

/-- Settles O34: the second state is the first with another memory that agrees in reach, and the other way round. -/
theorem stepIgnoresCellsAboveReach : Obligations.StepIgnoresCellsAboveReach := by
  intro s s' hparams hrs hloop hsize hread
  have hagree : s.mem.AgreeInReach s'.mem := ⟨hsize, hread⟩
  have hagree' : s'.mem.AgreeInReach s.mem := ⟨hsize.symm, fun x hx => (hread x hx).symm⟩
  have hs' : s' = s.setMem s'.mem := State.eq_setMem hparams hrs hloop
  have hs : s = s'.setMem s.mem := State.eq_setMem hparams.symm hrs.symm hloop.symm
  refine ⟨fun f => ⟨fun hfault => ?there, fun hfault => ?back⟩, fun t hnext => ?next⟩
  case there => exact hs' ▸ step_setMem_fault hagree hfault
  case back => exact hs ▸ step_setMem_fault hagree' hfault
  case next =>
    obtain ⟨m', hnext', hreach, habove⟩ := step_setMem_next hagree hnext
    exact ⟨t.setMem m', hs' ▸ hnext', rfl, rfl, rfl, hreach.read1_eq, habove⟩

end Sys2Proof.Machine

/-! ### The host ports (10_state.md section 4, 20_memory.md section 3) -/

namespace Sys2Proof.Machine

section Select

variable {s : State} {sel : BitVec 4} {v : Word} {r : Reg}

/-- REG_READ of a select that is a register's index (10_state.md R32). -/
theorem regRead_of_index (hidle : s.loop = .idle) (hr : r.index = sel.toNat) :
    regRead sel s = ⟨.ok (s.readReg r), s⟩ := by
  simp only [regRead, hidle, Reg.ofIndex?_eq_some.2 hr]

/-- REG_READ of a select of 10 or more (10_state.md R32). -/
theorem regRead_of_ge (hidle : s.loop = .idle) (hsel : 10 ≤ sel.toNat) :
    regRead sel s = ⟨.failed (.invalidRegister sel.toNat), s⟩ := by
  simp only [regRead, hidle, Reg.ofIndex?_eq_none hsel]

/-- REG_WRITE of a select that is a register's index (10_state.md R33). -/
theorem regWrite_of_index (hidle : s.loop = .idle) (hr : r.index = sel.toNat) :
    regWrite sel v s = ⟨.ok (), s.writeReg r v⟩ := by
  simp only [regWrite, hidle, Reg.ofIndex?_eq_some.2 hr]

/-- REG_WRITE of a select of 10 or more (10_state.md R33). -/
theorem regWrite_of_ge (hidle : s.loop = .idle) (hsel : 10 ≤ sel.toNat) :
    regWrite sel v s = ⟨.failed (.invalidRegister sel.toNat), s⟩ := by
  simp only [regWrite, hidle, Reg.ofIndex?_eq_none hsel]

end Select

/-- Settles O41: both ports reach the register whose index the select is, or none. -/
theorem regWriteThenReadBack : Obligations.RegWriteThenReadBack := by
  intro s sel v hidle
  refine ⟨fun hsel => ?register, fun hsel => ⟨regWrite_of_ge hidle hsel, regRead_of_ge hidle hsel⟩⟩
  case register =>
    obtain ⟨r, hr⟩ := Reg.exists_index (Nat.lt_succ_of_le hsel)
    have hback : (s.writeReg r v).readReg r = v := (s.writeReg_readReg r r v).trans (if_pos rfl)
    refine ⟨s.writeReg r v, regWrite_of_index hidle hr, ?readBack, fun r' hr' => ?others, fun hzero => ?ip, rfl, rfl,
      hidle⟩
    case readBack => rw [regRead_of_index (s := s.writeReg r v) hidle hr, hback]
    case others =>
      have hne : r' ≠ r := fun h => hr' (h ▸ hr)
      exact (s.writeReg_readReg r r' v).trans (if_neg hne)
    case ip =>
      obtain rfl := hzero
      obtain rfl : r = .ip := Reg.index_injective hr
      exact hback

/-- Settles O44: each port looks at the loop first. -/
theorem portsWaitForIdle : Obligations.PortsWaitForIdle := by
  intro s i b sel v hbusy
  refine ⟨?step, ?load, ?regRead, ?regWrite, ?dump⟩
  case step => simp only [stepPort, step, hbusy]
  case load => simp [load, grants, hbusy]
  case regRead => simp only [regRead, hbusy]
  case regWrite => simp only [regWrite, hbusy]
  case dump => simp only [dump, hbusy]

end Sys2Proof.Machine

/-! ### Runs (60_exceptions.md section 5, 42_control_transfer.md) -/

namespace Sys2Proof.Machine

section Runs

variable {n : Nat} {s t : State} {f : Fault}

/-- A run whose first STEP is Ok goes on from the state that STEP leaves (60_exceptions.md R180). -/
theorem runSteps_succ_of_next (h : step s = .next t) :
    runSteps (n + 1) s = (.ok () :: (runSteps n t).1, (runSteps n t).2) := by
  simp only [runSteps, stepPort, h]

/-- A run whose first STEP fails ends there, in the state it began in (60_exceptions.md R180). -/
theorem runSteps_succ_of_fault (h : step s = .fault f) : runSteps (n + 1) s = ([.failed f], s) := by
  simp only [runSteps, stepPort, h]

/-- The host's runner goes on from the next state. -/
theorem coreRun_succ_of_next (h : step s = .next t) : core.run (n + 1) s = core.run n t := by
  have hstep : core.step s = .next t := h
  simp only [Host.Core.run, hstep]

end Runs

/-- Settles O45, by induction on the budget: the first STEP ends the run or leaves it one STEP less to do. -/
theorem runEndsAtBudgetOrFirstFailure : Obligations.RunEndsAtBudgetOrFirstFailure := by
  intro n
  induction n with
  | zero => exact fun s _ => .inl ⟨rfl, rfl⟩
  | succ n ih =>
    intro s hidle
    cases hstep : step s with
    | refused r => exact absurd hstep (acceptedStepIsNeverRefused s r hidle)
    | fault f =>
      rw [runSteps_succ_of_fault hstep]
      exact .inr ⟨0, f, Nat.succ_pos n, rfl, rfl, hstep⟩
    | next t =>
      obtain ⟨-, i, cur, -, hexec⟩ := step_next_cases hstep
      obtain ⟨-, hidle'⟩ := exec_next_params_loop hexec
      rw [runSteps_succ_of_next hstep]
      obtain ⟨hall, hrun⟩ | ⟨k, f, hk, hfails, hrun, hfault⟩ := ih t hidle'
      · refine .inl ⟨?_, (coreRun_succ_of_next hstep).trans hrun⟩
        rw [hall, List.replicate_succ]
      · refine .inr ⟨k + 1, f, Nat.succ_lt_succ hk, ?_, (coreRun_succ_of_next hstep).trans hrun, hfault⟩
        rw [hfails, List.replicate_succ, List.cons_append]

/-- Writing the value of a register over whatever was written to it restores the storage (10_state.md R23). -/
theorem RegStorage.write_write_read (rs : RegStorage) (r : Reg) (v : Word) :
    (rs.write r v).write r (rs.read r) = rs := by
  ext o ho
  simp only [RegStorage.getElem_write, RegStorage.lowByte_read, RegStorage.highByte_read]
  split_ifs with hlow hhigh
  · simp only [hlow]
  · simp only [hhigh]
  · rfl

/-- A commit that writes `ip` back, in a state that is `Idle`, is the state itself (30_encoding.md R100). -/
theorem State.commit_register_ip_self {s : State} (hidle : s.loop = .idle) (cur : Word) :
    s.commit cur (.register .ip s.ip) = s := by
  have hrs : (s.commit cur (.register .ip s.ip)).rs = s.rs := RegStorage.write_write_read s.rs .ip cur
  exact State.eq_setMem (s.commit_params ..).symm hrs.symm (hidle.trans (s.commit_loop ..).symm)

/-- A run of a state that steps to itself is safe and stays there, under every budget (60_exceptions.md R180). -/
theorem runSteps_of_step_self {s : State} (h : step s = .next s) (n : Nat) :
    runSteps n s = (List.replicate n (.ok ()), s) := by
  induction n with
  | zero => rfl
  | succ n ih => rw [runSteps_succ_of_next h, ih, List.replicate_succ]

/-- Settles O46: the jump is taken and writes the `ip` it was fetched at, so the step leaves the state as it was. -/
theorem selfJumpRunsForever : Obligations.SelfJumpRunsForever := by
  intro s c n hidle hinj hdiffers hbytes
  have hstep : step s = .next s := by
    rw [stepRunsEncodedInstruction s (.jmpNeq c s.ip) hidle hinj rfl hbytes, exec_jmpNeq_of_ne hdiffers,
      State.commit_register_ip_self hidle]
  exact ⟨congrArg Prod.fst (runSteps_of_step_self hstep n), congrArg Prod.snd (runSteps_of_step_self hstep n)⟩

end Sys2Proof.Machine
